-- ==== Sys2Proof/Word.lean ====
section
/-! DEFINITION. The word types of the block (00_scope.md R19, R28; 10_state.md R31). -/

namespace Sys2Proof

/-- A byte of code or of stack memory. -/
abbrev Byte := BitVec 8

/-- The content of one register slot, and an effective address (R31, 20_memory.md R58). -/
abbrev Word := BitVec 64

/-- A 4-bit register number, which selects a slot (10_state.md R32, 30_encoding.md R85). -/
abbrev RegNum := BitVec 4

end Sys2Proof
end

