-- ==== Sys2Proof/Syntax.lean ====
section
/-! DEFINITION. The instructions of the block: one constructor of `Instr` per row of
spec/opcode_table.json, with the fields of the decoder's output `DecodedInstr` (30_encoding.md R98),
and the types of their parts. -/

namespace Sys2Proof

/-- The seven fault codes (60_exceptions.md R131). -/
inductive FaultCode where
  /-- UNSUPPORTED_OPCODE, raised by the decoder (R91 to R93). -/
  | unsupportedOpcode
  /-- UNSUPPORTED_PREFIX, raised by the decoder (R77, R95). -/
  | unsupportedPrefix
  /-- UNSUPPORTED_MODRM, raised by the decoder (R86, R88). -/
  | unsupportedModRM
  /-- TRUNCATED, raised by the decoder when a byte of the instruction is missing (R133). -/
  | truncated
  /-- STACK_OUT_OF_RANGE, raised by a load, a store, CMP, PUSH or POP (20_memory.md R60). -/
  | stackOutOfRange
  /-- BRANCH_OUT_OF_RANGE, raised by a taken branch (42_control.md R121). -/
  | branchOutOfRange
  /-- EQ_UNSET, raised by JE (10_state.md R49). -/
  | eqUnset
  deriving DecidableEq, Repr

/-- The operand width `w` of a form whose width is variable (30_encoding.md R84). -/
inductive Width where
  | w16
  | w32
  | w64
  deriving DecidableEq, Repr

/-- The low nibble `W:R:X:B` of a REX byte (30_encoding.md R78). -/
abbrev Rex := BitVec 4

/-- The prefix bytes of one instruction, `[0x66] [REX]` (30_encoding.md R77). -/
structure Prefixes where
  /-- Whether `0x66` stands before the opcode. -/
  osz : Bool
  /-- The REX byte, if there is one; `none` and `some 0` differ (10_state.md R44). -/
  rex : Option Rex
  deriving DecidableEq, Repr

/-- An 8-bit register identifier: the low byte of a slot, or the second byte of one of the first
four slots (10_state.md R34, R38, R39). -/
inductive Reg8 where
  /-- al, cl, ..., r15b: byte 0 of a slot. -/
  | low (slot : RegNum)
  /-- ah, ch, dh, bh: byte 1 of slot 0 to 3. -/
  | high (slot : BitVec 2)
  deriving DecidableEq, Repr

/-- A register identifier of width `w`, resolved to a slot and a byte offset (10_state.md R33). -/
structure RegId (w : Nat) where
  slot : RegNum
  offset : Nat
  deriving DecidableEq, Repr

/-- A memory operand `Mem(base, d8)` (30_encoding.md R87). -/
structure MemRef where
  base : RegNum
  d8 : Byte
  deriving DecidableEq, Repr

/-- The number of a form: the rows of the table of 30_encoding.md R94. -/
inductive Form where
  | movRmR
  | movRImm
  | movRmImm
  | movR8M8
  | movM8R8
  | movR32M32
  | movM32R32
  | movM32Imm32
  | xorRmR
  | subRmImm8
  | subRmImm32
  | cmpM8Imm8
  | pushR64
  | popR64
  | jeRel8
  | jeRel32
  | jmpRel32
  | endbr64
  | hlt
  | ret
  deriving DecidableEq, Repr

/-- What prefixes a row allows (30_encoding.md R95): a REX byte at all, which of its bits, `0x66`. -/
structure Allowance where
  rex : Bool
  bits : Rex
  osz : Bool
  deriving DecidableEq, Repr

/-- A decoded instruction: its row, its prefixes, its width where the row's width is variable, its
resolved operands and the immediate or displacement as the code bytes give it. -/
inductive Instr where
  /-- Row 1, MOV r/m, r (R106). -/
  | movRmR (pre : Prefixes) (w : Width) (rm reg : RegNum)
  /-- Row 2, MOV r, imm (short form) (R107); the immediate has `w` bits, the rest of `imm` is 0. -/
  | movRImm (pre : Prefixes) (w : Width) (r : RegNum) (imm : BitVec 64)
  /-- Row 3, MOV r/m, imm (ModRM form) (R108); at `w = 16` the upper half of `imm` is 0. -/
  | movRmImm (pre : Prefixes) (w : Width) (rm : RegNum) (imm : BitVec 32)
  /-- Row 4, MOV r8, m8 (R109). -/
  | movR8M8 (pre : Prefixes) (reg : Reg8) (mem : MemRef)
  /-- Row 5, MOV m8, r8 (R110). -/
  | movM8R8 (pre : Prefixes) (mem : MemRef) (reg : Reg8)
  /-- Row 6, MOV r32, m32 (R111). -/
  | movR32M32 (pre : Prefixes) (reg : RegNum) (mem : MemRef)
  /-- Row 7, MOV m32, r32 (R112). -/
  | movM32R32 (pre : Prefixes) (mem : MemRef) (reg : RegNum)
  /-- Row 8, MOV m32, imm32 (R113). -/
  | movM32Imm32 (pre : Prefixes) (mem : MemRef) (imm : BitVec 32)
  /-- Row 9, XOR r/m, r (R117). -/
  | xorRmR (pre : Prefixes) (w : Width) (rm reg : RegNum)
  /-- Row 10, SUB r/m, imm8 (R118). -/
  | subRmImm8 (pre : Prefixes) (w : Width) (rm : RegNum) (imm : BitVec 8)
  /-- Row 11, SUB r/m, imm32 (R119). -/
  | subRmImm32 (pre : Prefixes) (w : Width) (rm : RegNum) (imm : BitVec 32)
  /-- Row 12, CMP m8, imm8 (R120). -/
  | cmpM8Imm8 (pre : Prefixes) (mem : MemRef) (imm : BitVec 8)
  /-- Row 13, PUSH r64 (R114). -/
  | pushR64 (pre : Prefixes) (r : RegNum)
  /-- Row 14, POP r64 (R115). -/
  | popR64 (pre : Prefixes) (r : RegNum)
  /-- Row 15, JE rel8 (R122). -/
  | jeRel8 (cb : BitVec 8)
  /-- Row 16, JE rel32 (R123). -/
  | jeRel32 (cd : BitVec 32)
  /-- Row 17, JMP rel32 (R124). -/
  | jmpRel32 (cd : BitVec 32)
  /-- Row 18, ENDBR64 (R125). -/
  | endbr64
  /-- Row 19, HLT (R126). -/
  | hlt
  /-- Row 20, RET (R127). -/
  | ret
  deriving DecidableEq, Repr

end Sys2Proof
end

