-- ==== Sys2Proof/Machine/Forms.lean ====
section
/-! DEFINITION. The tables of 30_encoding.md over the forms: prefixes and width (R77, R78, R84),
what prefixes a row allows (R95), how long an instruction is (R96), the fault numbers
(60_exceptions.md R131). WellFormed, Decode and the machine all read them here. -/

namespace Sys2Proof

/-- The number of a fault code (60_exceptions.md R131). -/
def FaultCode.number : FaultCode → Nat
  | .unsupportedOpcode => 1
  | .unsupportedPrefix => 2
  | .unsupportedModRM => 3
  | .truncated => 4
  | .stackOutOfRange => 5
  | .branchOutOfRange => 6
  | .eqUnset => 7

/-- The width in bits. -/
def Width.bits : Width → Nat
  | .w16 => 16
  | .w32 => 32
  | .w64 => 64

/-- The width in bytes. -/
def Width.bytes : Width → Nat
  | .w16 => 2
  | .w32 => 4
  | .w64 => 8

/-- No prefix byte at all. -/
def Prefixes.bare : Prefixes := ⟨false, none⟩

/-- The REX bits, all zero when there is no REX byte (R85). -/
def Prefixes.rexBits (p : Prefixes) : Rex := p.rex.getD 0

/-- REX.W, bit 3 (R78). -/
def Prefixes.w (p : Prefixes) : Bool := p.rexBits.getLsbD 3

/-- REX.R, bit 2 (R78). -/
def Prefixes.r (p : Prefixes) : Bool := p.rexBits.getLsbD 2

/-- REX.X, bit 1 (R78). -/
def Prefixes.x (p : Prefixes) : Bool := p.rexBits.getLsbD 1

/-- REX.B, bit 0 (R78). -/
def Prefixes.b (p : Prefixes) : Bool := p.rexBits.getLsbD 0

/-- The prefix count `P` (R94, R96). -/
def Prefixes.count (p : Prefixes) : Nat :=
  (if p.osz then 1 else 0) + (if p.rex.isSome then 1 else 0)

/-- The operand width of a form whose width is variable: REX.W, then `0x66`, then 32 (R84). -/
def Prefixes.width (p : Prefixes) : Width :=
  if p.w then .w64 else if p.osz then .w16 else .w32

/-- The row number of a form (R94). -/
def Form.number : Form → Nat
  | .movRmR => 1
  | .movRImm => 2
  | .movRmImm => 3
  | .movR8M8 => 4
  | .movM8R8 => 5
  | .movR32M32 => 6
  | .movM32R32 => 7
  | .movM32Imm32 => 8
  | .xorRmR => 9
  | .subRmImm8 => 10
  | .subRmImm32 => 11
  | .cmpM8Imm8 => 12
  | .pushR64 => 13
  | .popR64 => 14
  | .jeRel8 => 15
  | .jeRel32 => 16
  | .jmpRel32 => 17
  | .endbr64 => 18
  | .hlt => 19
  | .ret => 20

/-- The prefix-allowance table (R95); the REX bits are written `W:R:X:B`. -/
def Form.allowance : Form → Allowance
  | .movRmR => ⟨true, 0b1101#4, true⟩
  | .movRImm => ⟨true, 0b1001#4, true⟩
  | .movRmImm => ⟨true, 0b1001#4, true⟩
  | .movR8M8 => ⟨true, 0b0101#4, false⟩
  | .movM8R8 => ⟨true, 0b0101#4, false⟩
  | .movR32M32 => ⟨true, 0b0101#4, false⟩
  | .movM32R32 => ⟨true, 0b0101#4, false⟩
  | .movM32Imm32 => ⟨true, 0b0001#4, false⟩
  | .xorRmR => ⟨true, 0b1101#4, true⟩
  | .subRmImm8 => ⟨true, 0b1001#4, false⟩
  | .subRmImm32 => ⟨true, 0b1001#4, false⟩
  | .cmpM8Imm8 => ⟨true, 0b0001#4, false⟩
  | .pushR64 => ⟨true, 0b0001#4, false⟩
  | .popR64 => ⟨true, 0b0001#4, false⟩
  | .jeRel8 => ⟨false, 0, false⟩
  | .jeRel32 => ⟨false, 0, false⟩
  | .jmpRel32 => ⟨false, 0, false⟩
  | .endbr64 => ⟨false, 0, false⟩
  | .hlt => ⟨false, 0, false⟩
  | .ret => ⟨false, 0, false⟩

/-- Whether the prefixes pass the check of R95: no REX where none is allowed, no REX bit outside the
allowed ones, no `0x66` where it is not allowed. -/
def Allowance.admits (a : Allowance) (p : Prefixes) : Bool :=
  (p.rex.isNone || a.rex) && (p.rexBits &&& ~~~a.bits) == 0 && (!p.osz || a.osz)

/-- How many immediate bytes the ModRM immediate move has (R89): iw at 16 bits, id otherwise. -/
def Width.modRMImmBytes : Width → Nat
  | .w16 => 2
  | .w32 => 4
  | .w64 => 4

/-- The row of an instruction. -/
def Instr.form : Instr → Form
  | .movRmR _ _ _ _ => .movRmR
  | .movRImm _ _ _ _ => .movRImm
  | .movRmImm _ _ _ _ => .movRmImm
  | .movR8M8 _ _ _ => .movR8M8
  | .movM8R8 _ _ _ => .movM8R8
  | .movR32M32 _ _ _ => .movR32M32
  | .movM32R32 _ _ _ => .movM32R32
  | .movM32Imm32 _ _ _ => .movM32Imm32
  | .xorRmR _ _ _ _ => .xorRmR
  | .subRmImm8 _ _ _ _ => .subRmImm8
  | .subRmImm32 _ _ _ _ => .subRmImm32
  | .cmpM8Imm8 _ _ _ => .cmpM8Imm8
  | .pushR64 _ _ => .pushR64
  | .popR64 _ _ => .popR64
  | .jeRel8 _ => .jeRel8
  | .jeRel32 _ => .jeRel32
  | .jmpRel32 _ => .jmpRel32
  | .endbr64 => .endbr64
  | .hlt => .hlt
  | .ret => .ret

/-- The prefixes of an instruction (R98); rows 15 to 20 have none (R95). -/
def Instr.prefixes : Instr → Prefixes
  | .movRmR p _ _ _ => p
  | .movRImm p _ _ _ => p
  | .movRmImm p _ _ _ => p
  | .movR8M8 p _ _ => p
  | .movM8R8 p _ _ => p
  | .movR32M32 p _ _ => p
  | .movM32R32 p _ _ => p
  | .movM32Imm32 p _ _ => p
  | .xorRmR p _ _ _ => p
  | .subRmImm8 p _ _ _ => p
  | .subRmImm32 p _ _ _ => p
  | .cmpM8Imm8 p _ _ => p
  | .pushR64 p _ => p
  | .popR64 p _ => p
  | .jeRel8 _ => .bare
  | .jeRel32 _ => .bare
  | .jmpRel32 _ => .bare
  | .endbr64 => .bare
  | .hlt => .bare
  | .ret => .bare

/-- The same instruction with other prefixes, its width and operands as they are; rows 15 to 20 have
no prefixes to change. -/
def Instr.withPrefixes (p : Prefixes) : Instr → Instr
  | .movRmR _ w rm reg => .movRmR p w rm reg
  | .movRImm _ w r imm => .movRImm p w r imm
  | .movRmImm _ w rm imm => .movRmImm p w rm imm
  | .movR8M8 _ reg mem => .movR8M8 p reg mem
  | .movM8R8 _ mem reg => .movM8R8 p mem reg
  | .movR32M32 _ reg mem => .movR32M32 p reg mem
  | .movM32R32 _ mem reg => .movM32R32 p mem reg
  | .movM32Imm32 _ mem imm => .movM32Imm32 p mem imm
  | .xorRmR _ w rm reg => .xorRmR p w rm reg
  | .subRmImm8 _ w rm imm => .subRmImm8 p w rm imm
  | .subRmImm32 _ w rm imm => .subRmImm32 p w rm imm
  | .cmpM8Imm8 _ mem imm => .cmpM8Imm8 p mem imm
  | .pushR64 _ r => .pushR64 p r
  | .popR64 _ r => .popR64 p r
  | .jeRel8 cb => .jeRel8 cb
  | .jeRel32 cd => .jeRel32 cd
  | .jmpRel32 cd => .jmpRel32 cd
  | .endbr64 => .endbr64
  | .hlt => .hlt
  | .ret => .ret

/-- The width of an instruction in bits (R84, R94); the control instructions have none. -/
def Instr.bits : Instr → Option Nat
  | .movRmR _ w _ _ => some w.bits
  | .movRImm _ w _ _ => some w.bits
  | .movRmImm _ w _ _ => some w.bits
  | .movR8M8 _ _ _ => some 8
  | .movM8R8 _ _ _ => some 8
  | .movR32M32 _ _ _ => some 32
  | .movM32R32 _ _ _ => some 32
  | .movM32Imm32 _ _ _ => some 32
  | .xorRmR _ w _ _ => some w.bits
  | .subRmImm8 _ w _ _ => some w.bits
  | .subRmImm32 _ w _ _ => some w.bits
  | .cmpM8Imm8 _ _ _ => some 8
  | .pushR64 _ _ => some 64
  | .popR64 _ _ => some 64
  | .jeRel8 _ => none
  | .jeRel32 _ => none
  | .jmpRel32 _ => none
  | .endbr64 => none
  | .hlt => none
  | .ret => none

/-- The total length `L` in bytes (R96). -/
def Instr.length : Instr → Nat
  | .movRmR p _ _ _ => p.count + 2
  | .movRImm p w _ _ => p.count + 1 + w.bytes
  | .movRmImm p w _ _ => p.count + 2 + w.modRMImmBytes
  | .movR8M8 p _ _ => p.count + 3
  | .movM8R8 p _ _ => p.count + 3
  | .movR32M32 p _ _ => p.count + 3
  | .movM32R32 p _ _ => p.count + 3
  | .movM32Imm32 p _ _ => p.count + 7
  | .xorRmR p _ _ _ => p.count + 2
  | .subRmImm8 p _ _ _ => p.count + 3
  | .subRmImm32 p _ _ _ => p.count + 6
  | .cmpM8Imm8 p _ _ => p.count + 4
  | .pushR64 p _ => p.count + 1
  | .popR64 p _ => p.count + 1
  | .jeRel8 _ => 2
  | .jeRel32 _ => 6
  | .jmpRel32 _ => 5
  | .endbr64 => 4
  | .hlt => 1
  | .ret => 1

end Sys2Proof
end

