-- ==== Sys2Proof/WellFormed.lean ====
section
/-! DEFINITION. When an `Instr` is one that some code bytes stand for: the prefixes are ones the row
allows, the width is the one they select, every register number has the extension bit they give,
and the immediate has no more bits than its bytes hold (30_encoding.md R84, R85, R86, R89, R95). -/

namespace Sys2Proof

/-- The extension bit of a register number is the REX bit given for it (R85). -/
def RegNum.hasBit (n : RegNum) (bit : Bool) : Bool := n.getLsbD 3 == bit

/-- An 8-bit identifier is one that the prefixes can select (10_state.md R38, R39): with REX the low
byte of the slot whose extension bit is REX.R; without REX the low byte of slot 0 to 3, or a high
byte. -/
def Reg8.selectable (r : Reg8) (p : Prefixes) : Bool :=
  match r, p.rex with
  | .low n, some _ => RegNum.hasBit n p.r
  | .low n, none => n.ult 4
  | .high _, some _ => false
  | .high _, none => true

/-- The base register has the extension bit REX.B, and its low three bits are not 100, which would
ask for a SIB byte (R86, R87). -/
def MemRef.encodable (m : MemRef) (p : Prefixes) : Bool :=
  RegNum.hasBit m.base p.b && m.base.setWidth 3 != 4#3

/-- The width is the one the prefixes select (R84). -/
def Prefixes.selects (p : Prefixes) (w : Width) : Bool := p.width == w

/-- The operands and the immediate of an instruction agree with its prefixes. -/
def Instr.operandsOk : Instr → Bool
  | .movRmR p w rm reg => p.selects w && RegNum.hasBit rm p.b && RegNum.hasBit reg p.r
  | .movRImm p w r imm => p.selects w && RegNum.hasBit r p.b && imm.toNat < 2 ^ w.bits
  | .movRmImm p w rm imm =>
    p.selects w && RegNum.hasBit rm p.b && imm.toNat < 2 ^ (8 * w.modRMImmBytes)
  | .movR8M8 p reg mem => reg.selectable p && mem.encodable p
  | .movM8R8 p mem reg => reg.selectable p && mem.encodable p
  | .movR32M32 p reg mem => RegNum.hasBit reg p.r && mem.encodable p
  | .movM32R32 p mem reg => RegNum.hasBit reg p.r && mem.encodable p
  | .movM32Imm32 p mem _ => mem.encodable p
  | .xorRmR p w rm reg => p.selects w && RegNum.hasBit rm p.b && RegNum.hasBit reg p.r
  | .subRmImm8 p w rm _ => p.selects w && RegNum.hasBit rm p.b
  | .subRmImm32 p w rm _ => p.selects w && RegNum.hasBit rm p.b
  | .cmpM8Imm8 p mem _ => mem.encodable p
  | .pushR64 p r => RegNum.hasBit r p.b
  | .popR64 p r => RegNum.hasBit r p.b
  | .jeRel8 _ => true
  | .jeRel32 _ => true
  | .jmpRel32 _ => true
  | .endbr64 => true
  | .hlt => true
  | .ret => true

/-- The prefixes are ones the row allows (R95). -/
def Instr.prefixesOk (i : Instr) : Bool := i.form.allowance.admits i.prefixes

/-- The instruction is one that some code bytes stand for. -/
def WellFormed (i : Instr) : Bool := i.prefixesOk && i.operandsOk

end Sys2Proof
end

