-- ==== Sys2Proof/Decode.lean ====
section
/-! DEFINITION. The decoder, total on any bytes, rejecting by a fault code (30_encoding.md R97, R99),
and after it the encoder, written from the same tables (R76, R89, R94). -/

namespace Sys2Proof

/-! ### Byte order (20_memory.md R63) -/

/-- The value of a list of bytes, the first the least significant (R63). -/
def leValue : List Byte → Nat
  | [] => 0
  | b :: bs => b.toNat + 256 * leValue bs

/-- The `n` bytes of a value, the least significant first (R63). -/
def leBytes : Nat → Nat → List Byte
  | 0, _ => []
  | n + 1, v => BitVec.ofNat 8 v :: leBytes n (v / 256)

/-! ### Reading the code bytes (00_scope.md R29) -/

/-- `CodeByte`: the next byte and the bytes after it, or TRUNCATED. -/
def nextByte : List Byte → Except FaultCode (Byte × List Byte)
  | [] => .error .truncated
  | b :: bs => .ok (b, bs)

/-- `CodeLE`: the next `n` bytes as a little-endian value and the bytes after them, fetched from the
lowest offset up, or TRUNCATED. -/
def nextLE : Nat → List Byte → Except FaultCode (Nat × List Byte)
  | 0, bs => .ok (0, bs)
  | _ + 1, [] => .error .truncated
  | n + 1, b :: bs =>
    match nextLE n bs with
    | .error c => .error c
    | .ok (v, rest) => .ok (b.toNat + 256 * v, rest)

/-! ### Prefixes (R77) -/

/-- The operand-size override (R80). -/
def oszByte : Byte := 0x66

/-- Whether a byte is a REX byte, `0100:W:R:X:B` (R78). -/
def isRex (b : Byte) : Bool := b.extractLsb' 4 4 == 0b0100#4

/-- The optional `0x66`. -/
def readOsz : List Byte → Bool × List Byte
  | [] => (false, [])
  | b :: bs => if b = oszByte then (true, bs) else (false, b :: bs)

/-- The optional REX byte. -/
def readRex : List Byte → Option Rex × List Byte
  | [] => (none, [])
  | b :: bs => if isRex b then (some (b.extractLsb' 0 4), bs) else (none, b :: bs)

/-- The prefix bytes `[0x66] [REX]`. -/
def readPrefixes (bs : List Byte) : Prefixes × List Byte :=
  let o := readOsz bs
  let r := readRex o.2
  (⟨o.1, r.1⟩, r.2)

/-! ### Opcode and ModRM (R83, R86, R88, R91 to R94) -/

/-- A row that the opcode and ModRM bytes have selected, with the 3-bit register fields: `rm` is
ModRM.rm, or the low opcode bits of a `+r` form; `reg` is ModRM.reg. -/
structure Selected where
  form : Form
  reg : BitVec 3
  rm : BitVec 3
  deriving DecidableEq, Repr

/-- The opcodes that a ModRM byte follows (R91). -/
def hasModRM (op : Byte) : Bool :=
  op = 0x88 || op = 0x89 || op = 0x8A || op = 0x8B || op = 0xC7 || op = 0x31 || op = 0x83 ||
    op = 0x81 || op = 0x80

/-- A row with a register operand: `mod` must be 11 (R94). -/
def selectRegister (f : Form) (mod : BitVec 2) : Except FaultCode Form :=
  if mod = 0b11#2 then .ok f else .error .unsupportedModRM

/-- A row with a memory operand: `mod` must be 01, and `rm` must not be 100 (R86, R94). -/
def selectMemory (f : Form) (mod : BitVec 2) (rm : BitVec 3) : Except FaultCode Form :=
  if mod = 0b01#2 ∧ rm ≠ 0b100#3 then .ok f else .error .unsupportedModRM

/-- `SelectRow`: the row of an opcode with a ModRM byte (R86, R88, R94, R97). -/
def selectRow (op : Byte) (mod : BitVec 2) (reg rm : BitVec 3) : Except FaultCode Form :=
  if op = 0x88 then selectMemory .movM8R8 mod rm
  else if op = 0x89 then
    if mod = 0b11#2 then .ok .movRmR else selectMemory .movM32R32 mod rm
  else if op = 0x8A then selectMemory .movR8M8 mod rm
  else if op = 0x8B then selectMemory .movR32M32 mod rm
  else if op = 0xC7 then
    if reg ≠ 0 then .error .unsupportedModRM
    else if mod = 0b11#2 then .ok .movRmImm else selectMemory .movM32Imm32 mod rm
  else if op = 0x31 then selectRegister .xorRmR mod
  else if op = 0x83 then
    if reg ≠ 5 then .error .unsupportedModRM else selectRegister .subRmImm8 mod
  else if op = 0x81 then
    if reg ≠ 5 then .error .unsupportedModRM else selectRegister .subRmImm32 mod
  else if op = 0x80 then
    if reg ≠ 7 then .error .unsupportedModRM else selectMemory .cmpM8Imm8 mod rm
  else .error .unsupportedOpcode

/-- The row of an opcode of one byte with no ModRM byte (R91). -/
def oneByteForm (op : Byte) : Option Form :=
  if op.extractLsb' 3 5 = 0b01010#5 then some .pushR64
  else if op.extractLsb' 3 5 = 0b01011#5 then some .popR64
  else if op.extractLsb' 3 5 = 0b10111#5 then some .movRImm
  else if op = 0x74 then some .jeRel8
  else if op = 0xE9 then some .jmpRel32
  else if op = 0xF4 then some .hlt
  else if op = 0xC3 then some .ret
  else none

/-- The remaining bytes of a fixed opcode, one at a time: a mismatch raises UNSUPPORTED_OPCODE, a
missing byte TRUNCATED (R92, R93). -/
def matchBytes : List Byte → List Byte → Except FaultCode (List Byte)
  | [], bs => .ok bs
  | _ :: _, [] => .error .truncated
  | e :: es, b :: bs => if b = e then matchBytes es bs else .error .unsupportedOpcode

/-- Opcode dispatch on the first byte after the prefixes (R91), with the bytes after it. -/
def selectForm (op : Byte) (bs : List Byte) : Except FaultCode (Selected × List Byte) :=
  if op = 0x0F then
    match matchBytes [0x84] bs with
    | .error c => .error c
    | .ok rest => .ok (⟨.jeRel32, 0, 0⟩, rest)
  else if op = 0xF3 then
    match matchBytes [0x0F, 0x1E, 0xFA] bs with
    | .error c => .error c
    | .ok rest => .ok (⟨.endbr64, 0, 0⟩, rest)
  else if hasModRM op then
    match nextByte bs with
    | .error c => .error c
    | .ok (m, rest) =>
      match selectRow op (m.extractLsb' 6 2) (m.extractLsb' 3 3) (m.extractLsb' 0 3) with
      | .error c => .error c
      | .ok f => .ok (⟨f, m.extractLsb' 3 3, m.extractLsb' 0 3⟩, rest)
  else
    match oneByteForm op with
    | none => .error .unsupportedOpcode
    | some f => .ok (⟨f, 0, op.extractLsb' 0 3⟩, bs)

/-! ### Operands (R85, R87, R89, R90) -/

/-- A register number: the REX bit, then the 3-bit field (R85). -/
def regNum (bit : Bool) (field : BitVec 3) : RegNum := BitVec.ofBool bit ++ field

/-- The 8-bit identifier of a ModRM.reg field: the low byte of the slot when a REX byte is present,
else al, cl, dl, bl, ah, ch, dh, bh (10_state.md R38, R39). -/
def reg8 (p : Prefixes) (field : BitVec 3) : Reg8 :=
  if p.rex.isSome then .low (regNum p.r field)
  else if field.getLsbD 2 then .high (field.extractLsb' 0 2)
  else .low (regNum false field)

/-- A memory operand from its ModRM.rm field and its displacement byte (R87). -/
def memRef (p : Prefixes) (field : BitVec 3) (d8 : Byte) : MemRef := ⟨regNum p.b field, d8⟩

/-- A row whose last bytes are an immediate or displacement of `n` bytes. -/
def withImm (n : Nat) (k : Nat → Instr) (bs : List Byte) : Except FaultCode (Instr × List Byte) :=
  match nextLE n bs with
  | .error c => .error c
  | .ok (v, rest) => .ok (k v, rest)

/-- A row with a disp8 byte and then an immediate of `n` bytes (`n = 0` where it has none). -/
def withMemImm (p : Prefixes) (s : Selected) (n : Nat) (k : MemRef → Nat → Instr)
    (bs : List Byte) : Except FaultCode (Instr × List Byte) :=
  match nextByte bs with
  | .error c => .error c
  | .ok (d8, rest) => withImm n (k (memRef p s.rm d8)) rest

/-- The operands of the selected row, read from the bytes after its ModRM byte (R85, R87, R89, R90). -/
def readOperands (p : Prefixes) (s : Selected) (bs : List Byte) :
    Except FaultCode (Instr × List Byte) :=
  let rm := regNum p.b s.rm
  let reg := regNum p.r s.reg
  match s.form with
  | .movRmR => .ok (.movRmR p p.width rm reg, bs)
  | .movRImm => withImm p.width.bytes (fun v => .movRImm p p.width rm (BitVec.ofNat 64 v)) bs
  | .movRmImm =>
    withImm p.width.modRMImmBytes (fun v => .movRmImm p p.width rm (BitVec.ofNat 32 v)) bs
  | .movR8M8 => withMemImm p s 0 (fun m _ => .movR8M8 p (reg8 p s.reg) m) bs
  | .movM8R8 => withMemImm p s 0 (fun m _ => .movM8R8 p m (reg8 p s.reg)) bs
  | .movR32M32 => withMemImm p s 0 (fun m _ => .movR32M32 p reg m) bs
  | .movM32R32 => withMemImm p s 0 (fun m _ => .movM32R32 p m reg) bs
  | .movM32Imm32 => withMemImm p s 4 (fun m v => .movM32Imm32 p m (BitVec.ofNat 32 v)) bs
  | .xorRmR => .ok (.xorRmR p p.width rm reg, bs)
  | .subRmImm8 => withImm 1 (fun v => .subRmImm8 p p.width rm (BitVec.ofNat 8 v)) bs
  | .subRmImm32 => withImm 4 (fun v => .subRmImm32 p p.width rm (BitVec.ofNat 32 v)) bs
  | .cmpM8Imm8 => withMemImm p s 1 (fun m v => .cmpM8Imm8 p m (BitVec.ofNat 8 v)) bs
  | .pushR64 => .ok (.pushR64 p rm, bs)
  | .popR64 => .ok (.popR64 p rm, bs)
  | .jeRel8 => withImm 1 (fun v => .jeRel8 (BitVec.ofNat 8 v)) bs
  | .jeRel32 => withImm 4 (fun v => .jeRel32 (BitVec.ofNat 32 v)) bs
  | .jmpRel32 => withImm 4 (fun v => .jmpRel32 (BitVec.ofNat 32 v)) bs
  | .endbr64 => .ok (.endbr64, bs)
  | .hlt => .ok (.hlt, bs)
  | .ret => .ok (.ret, bs)

/-- What follows the prefix bytes: opcode, ModRM, the prefix check, then the operands, in the order
of R97. A `0x66` or REX byte where the opcode should stand raises UNSUPPORTED_PREFIX (R77). -/
def decodeOpcode (p : Prefixes) (bs : List Byte) : Except FaultCode (Instr × List Byte) :=
  match nextByte bs with
  | .error c => .error c
  | .ok (op, rest) =>
    if op = oszByte ∨ isRex op then .error .unsupportedPrefix
    else
      match selectForm op rest with
      | .error c => .error c
      | .ok (s, rest') =>
        if s.form.allowance.admits p then readOperands p s rest' else .error .unsupportedPrefix

/-- Decode the instruction at the head of `bs`: the instruction and the bytes after it, or the fault
that decoding raises (R97). -/
def decode (bs : List Byte) : Except FaultCode (Instr × List Byte) :=
  decodeOpcode (readPrefixes bs).1 (readPrefixes bs).2

/-- `Decode(ip)`: decode at an offset into the code buffer; an offset outside the buffer holds no
byte and raises TRUNCATED (00_scope.md R29, 20_memory.md R56, 30_encoding.md R97). -/
def decodeAt (code : List Byte) (ip : Int) : Except FaultCode (Instr × List Byte) :=
  if ip < 0 then .error .truncated else decode (code.drop ip.toNat)

/-! ### The encoder (R76, R78, R83, R94) -/

/-- The prefix bytes (R77, R78). -/
def Prefixes.encode (p : Prefixes) : List Byte :=
  (if p.osz then [oszByte] else []) ++
    match p.rex with
    | none => []
    | some r => [0b0100#4 ++ r]

/-- A ModRM byte `mod:reg:rm` (R83). -/
def modRM (mod : BitVec 2) (reg rm : BitVec 3) : Byte := mod ++ reg ++ rm

/-- The low three bits of a register number, which stand in ModRM or in the opcode (R85). -/
def RegNum.field (n : RegNum) : BitVec 3 := n.extractLsb' 0 3

/-- The ModRM.reg field of an 8-bit identifier (10_state.md R38, R39). -/
def Reg8.field : Reg8 → BitVec 3
  | .low n => n.extractLsb' 0 3
  | .high n => 1#1 ++ n

/-- A `+r` opcode byte: the opcode's upper five bits, then the register (R85). -/
def plusR (op : BitVec 5) (n : RegNum) : Byte := op ++ n.extractLsb' 0 3

/-- ModRM and disp8 of a memory operand (R76, R87). -/
def MemRef.encode (m : MemRef) (reg : BitVec 3) : List Byte :=
  [modRM 0b01#2 reg (RegNum.field m.base), m.d8]

/-- The code bytes of an instruction after its prefixes (R76, R94). -/
def Instr.body : Instr → List Byte
  | .movRmR _ _ rm reg => [0x89, modRM 0b11#2 (RegNum.field reg) (RegNum.field rm)]
  | .movRImm _ w r imm => plusR 0b10111#5 r :: leBytes w.bytes imm.toNat
  | .movRmImm _ w rm imm =>
    0xC7 :: modRM 0b11#2 0 (RegNum.field rm) :: leBytes w.modRMImmBytes imm.toNat
  | .movR8M8 _ reg mem => 0x8A :: mem.encode reg.field
  | .movM8R8 _ mem reg => 0x88 :: mem.encode reg.field
  | .movR32M32 _ reg mem => 0x8B :: mem.encode (RegNum.field reg)
  | .movM32R32 _ mem reg => 0x89 :: mem.encode (RegNum.field reg)
  | .movM32Imm32 _ mem imm => 0xC7 :: mem.encode 0 ++ leBytes 4 imm.toNat
  | .xorRmR _ _ rm reg => [0x31, modRM 0b11#2 (RegNum.field reg) (RegNum.field rm)]
  | .subRmImm8 _ _ rm imm => 0x83 :: modRM 0b11#2 5 (RegNum.field rm) :: leBytes 1 imm.toNat
  | .subRmImm32 _ _ rm imm => 0x81 :: modRM 0b11#2 5 (RegNum.field rm) :: leBytes 4 imm.toNat
  | .cmpM8Imm8 _ mem imm => 0x80 :: mem.encode 7 ++ leBytes 1 imm.toNat
  | .pushR64 _ r => [plusR 0b01010#5 r]
  | .popR64 _ r => [plusR 0b01011#5 r]
  | .jeRel8 cb => 0x74 :: leBytes 1 cb.toNat
  | .jeRel32 cd => 0x0F :: 0x84 :: leBytes 4 cd.toNat
  | .jmpRel32 cd => 0xE9 :: leBytes 4 cd.toNat
  | .endbr64 => [0xF3, 0x0F, 0x1E, 0xFA]
  | .hlt => [0xF4]
  | .ret => [0xC3]

/-- The code bytes of an instruction. -/
def encode (i : Instr) : List Byte := i.prefixes.encode ++ i.body

/-! ### Words of the opcode table -/

/-- The longest instruction in bytes: 11, which is row 2 with `0x66`, a REX byte with W and an
immediate iq, `P + 1 + w/8` with `P = 2` (R96, R95, D27). R75 says that lengths go up to 10 bytes: the
two disagree on this one form, and the model follows R96 (DESIGN CHOICE, safe; log 19). -/
def maxInstrBytes : Nat := 11

/-- A number's bytes, the most significant first, without leading zero bytes. -/
def beBytes : Nat → Nat → List Byte → List Byte
  | 0, _, acc => acc
  | n + 1, w, acc => if w = 0 then acc else beBytes n (w / 256) (BitVec.ofNat 8 w :: acc)

/-- The code bytes of a word of spec/opcode_table.json. The table reads an instruction's opcode and
ModRM bytes as one number whose FIRST byte is the most significant; a leading zero byte is no byte
of a row, since no row begins with 00 (log 12). Zero bytes follow, up to the longest instruction. -/
def tableBytes (nbits w : Nat) : List Byte :=
  let bs := beBytes (nbits / 8) w []
  bs ++ List.replicate (maxInstrBytes - bs.length) 0

/-- The instruction the decoder reads from a word of spec/opcode_table.json. -/
def decodeTableWord (nbits w : Nat) : Option Instr :=
  match decode (tableBytes nbits w) with
  | .error _ => none
  | .ok (i, _) => some i

end Sys2Proof
end

