-- ==== Sys2Proof/Config.lean ====
section
/-! DEFINITION. The parameters of the block (00_scope.md section 5). They are launch inputs that no
instruction writes; State carries them, so a statement over all states holds for every value of
them (log 1). -/

namespace Sys2Proof

/-- The default of `NUM_SLOTS` (R18). -/
def Config.numSlots : Nat := 16

/-- The default of `SLOT_BYTES` (R19). -/
def Config.slotBytes : Nat := 8

/-- The default of `STACK_SIZE` (R20): 1 MiB. -/
def Config.stackSize : Nat := 1048576

/-- The default of `CODE_MAX` (R22). -/
def Config.codeMax : Nat := 4096

/-- Which text the trace port writes (R26): the reference rendering of 30_encoding.md R104, or some
other one, of which nothing is known but what R26 fixes of every rendering (log 7). -/
inductive Renderer where
  | reference
  | other (k : Nat)
  deriving DecidableEq, Repr

/-- The text that rendering number `k` other than the reference writes for an instruction: a free
value, since the spec leaves `render` open (R26, D21; log 7). `Params.line` takes it where it keeps
to the properties that R26 fixes. -/
opaque Config.otherRender : Nat → Instr → String

/-- The parameters that a model can take another value of (R3, R18 to R20, R22, R23, R26). -/
structure Params where
  /-- `NUM_SLOTS` (R18). -/
  numSlots : Nat
  /-- `SLOT_BYTES` (R19). -/
  slotBytes : Nat
  /-- `STACK_SIZE` (R20). -/
  stackSize : Nat
  /-- `CODE_MAX` (R22). -/
  codeMax : Nat
  /-- `ZEXT32` (R23). -/
  zext32 : Bool
  /-- `render` (R26). -/
  renderer : Renderer
  deriving DecidableEq, Repr

/-- The value the spec takes for the hardware: the defaults of 00_scope.md section 5. -/
def Params.reference : Params where
  numSlots := Config.numSlots
  slotBytes := Config.slotBytes
  stackSize := Config.stackSize
  codeMax := Config.codeMax
  zext32 := false
  renderer := .reference

/-- Whether the register file has every slot and every byte that a register identifier names: 16
slots of 8 bytes (10_state.md R32, R34, 30_encoding.md R85; log 16). -/
def Params.holdsRegisters (p : Params) : Bool := 16 ≤ p.numSlots && 8 ≤ p.slotBytes

/-- How many bytes of the register file no register identifier names (R18, R19; log 16): none with
the defaults. -/
def Params.spareBytes (p : Params) : Nat := p.numSlots * p.slotBytes - 16 * 8

/-- `STACK_TOP = STACK_SIZE` (R21), as the 64-bit value that rsp and rbp take at reset. -/
def Params.stackTop (p : Params) : Word := BitVec.ofNat 64 p.stackSize

end Sys2Proof
end

