-- ==== Sys2Proof/Machine/State.lean ====
section
/-! DEFINITION. The state of the block as plain data (10_state.md), the launch inputs it carries
(log 1), the reasons a step can stop, and the state after reset. -/

namespace Sys2Proof.Machine

/-- The run status (10_state.md R50). -/
inductive RunStatus where
  | running
  /-- Ended by HLT. -/
  | halted
  /-- Ended by RET. -/
  | returned
  /-- Ended by a fault: its code, and the `ip` of the faulting instruction. -/
  | faulted (code : FaultCode) (offset : Int)
  deriving DecidableEq, Repr

/-- The equality latch (10_state.md R47). -/
inductive EqLatch where
  | unset
  | set (value : Bool)
  deriving DecidableEq, Repr

/-- The stack memory (20_memory.md R58): address and byte pairs in the canonical form of
`Memory.wf`; an unlisted address reads as `Memory.unlisted`. -/
abbrev Memory := List Host.Cell

/-- The state of the block, with the launch inputs that the step reads and no instruction writes. -/
structure State where
  /-- The 16 register slots (R31, R32). -/
  gpr : Vector Word 16
  /-- The bytes of the register file that no register identifier names: bytes 8 to `SLOT_BYTES` - 1 of
  slots 0 to 15, then slots 16 to `NUM_SLOTS` - 1 whole (00_scope.md R18, R19; log 16). There are none
  with the defaults, and no instruction reaches one. -/
  spare : List Byte
  /-- The instruction pointer, an offset into the code buffer (R40). -/
  ip : Int
  /-- The REX latch (R44). -/
  rex : Option Rex
  /-- The operand-size-override latch (R45). -/
  osz : Bool
  /-- The equality latch (R47). -/
  eq : EqLatch
  /-- The run status (R50). -/
  run : RunStatus
  /-- The stack memory (20_memory.md R58). -/
  mem : Memory
  /-- The lines of the trace port (R51). -/
  trace : List String
  /-- Launch input: the code buffer; its length is `len` (00_scope.md R14, 20_memory.md R56). -/
  code : List Byte
  /-- Launch input: whether the trace port records lines (00_scope.md R14, R16). -/
  sinkAttached : Bool
  /-- Launch input: the parameters (00_scope.md section 5). -/
  params : Params
  deriving DecidableEq, Repr

/-- Why the machine has no next state. -/
inductive Fault where
  /-- Raised by `step` in a terminal state, which has no next step (R50, 70_reset_and_hazards.md
  R149). Safe: the machine stops where the hardware has stopped. The faults of 60_exceptions.md are
  not of this type: each is a next state whose run status is `faulted` (log 8, log 9). -/
  | runEnded (status : RunStatus)
  deriving DecidableEq, Repr

/-- Why something is refused. -/
inductive Refusal where
  /-- An instruction with no meaning yet, raised by `exec`; no arm raises it. Safe. -/
  | notModelled (mnemonic : String)
  /-- Raised by `launch` for a code buffer longer than CODE_MAX (70_reset_and_hazards.md R147).
  Safe: no run starts. -/
  | codeTooLong (len : Nat)
  /-- Raised by `launch` for a register file with fewer than 16 slots or slots of fewer than 8 bytes,
  for which the spec has no rule (log 16). Safe: no run starts. -/
  | registerFileTooSmall (numSlots slotBytes : Nat)
  deriving DecidableEq, Repr

/-- What the host supplies to start a run (00_scope.md R14, section 5). -/
structure Launch where
  code : List Byte
  sinkAttached : Bool
  params : Params
  /-- `gpr_init` (R24); its entries 4 and 5 are not used. -/
  gprInit : Vector Word 16
  /-- What the bytes that no register identifier names start with (log 16); zero where it is shorter
  than they are, cut where it is longer. -/
  spareInit : List Byte
  /-- `stack_init` (R25), in the canonical form of `Memory.wf`. -/
  stackInit : Memory
  deriving DecidableEq, Repr

/-- The launch with the reference value of every input, and no program (log 2 to 7, 13, 16). -/
def Launch.reference : Launch where
  code := []
  sinkAttached := true
  params := Params.reference
  gprInit := Vector.replicate 16 0
  spareInit := []
  stackInit := []

/-- The fresh state a run starts from: the table of 10_state.md R53. -/
def State.ofLaunch (l : Launch) : State where
  gpr := (l.gprInit.set 4 l.params.stackTop).set 5 l.params.stackTop
  spare := (l.spareInit.take l.params.spareBytes).rightpad l.params.spareBytes 0
  ip := 0
  rex := none
  osz := false
  eq := .unset
  run := .running
  mem := l.stackInit
  trace := []
  code := l.code
  sinkAttached := l.sinkAttached
  params := l.params

/-- The machine right after reset, with the reference launch inputs (R53, R146). -/
def State.reset : State := State.ofLaunch Launch.reference

end Sys2Proof.Machine
end

