-- ==== Sys2Proof/Machine/Flags.lean ====
section
/-! DEFINITION. The only condition state of the block, the equality latch, and who writes it
(10_state.md R47 to R49). There are no other flags (R52). -/

namespace Sys2Proof.Machine

/-- `eq <- Set(v == imm)`, what CMP writes (R48, 41_arith_logic.md R120). -/
def State.compareEq (s : State) (v imm : Byte) : State := { s with eq := .set (v == imm) }

/-- `eq <- Unset`, what XOR and SUB write (R48). -/
def State.clearEq (s : State) : State := { s with eq := .unset }

end Sys2Proof.Machine
end

