-- ==== Sys2Proof/Machine/Operands.lean ====
section
/-! DEFINITION. The operand forms: register identifiers and their views (10_state.md R33 to R39),
effective addresses (20_memory.md R59), immediates (30_encoding.md R89) and branch displacements
(R90). -/

namespace Sys2Proof

/-- The identifier of width `w` of a slot (10_state.md R34). -/
def Width.reg (w : Width) (n : RegNum) : RegId w.bits := ⟨n, 0⟩

/-- The 32-bit identifier of a slot (R34). -/
def reg32 (n : RegNum) : RegId 32 := ⟨n, 0⟩

/-- The slot and byte offset of an 8-bit identifier (R34, R38, R39). -/
def Reg8.id : Reg8 → RegId 8
  | .low n => ⟨n, 0⟩
  | .high n => ⟨n.setWidth 4, 1⟩

/-- rsp is slot 4 (R32). -/
def rsp : RegNum := 4

/-- rbp is slot 5 (R32). -/
def rbp : RegNum := 5

/-- The immediate of the short form at its width (30_encoding.md R89). -/
def shortImm (w : Width) (imm : BitVec 64) : BitVec w.bits := imm.setWidth w.bits

/-- The immediate of the ModRM move at its width: iw at 16 bits, id at 32, `sext_64(id)` at 64
(R89). -/
def modRMImm (w : Width) (imm : BitVec 32) : BitVec w.bits := imm.signExtend w.bits

/-- `sext_w(ib)` (R89). -/
def subImm8 (w : Width) (imm : BitVec 8) : BitVec w.bits := imm.signExtend w.bits

/-- `sext_w(id)` (R89). -/
def subImm32 (w : Width) (imm : BitVec 32) : BitVec w.bits := imm.signExtend w.bits

/-- The displacement of a branch as an integer, `cb` or `cd` (R90). -/
def branchDisp {n : Nat} (d : BitVec n) : Int := d.toInt

end Sys2Proof

namespace Sys2Proof.Machine

/-- `GPR[n]` (00_scope.md R29). -/
def State.readGpr (s : State) (n : RegNum) : Word := s.gpr[n.toNat]'n.isLt

/-- `GPR[n] <- v` (00_scope.md R29). -/
def State.writeGpr (s : State) (n : RegNum) (v : Word) : State :=
  { s with gpr := s.gpr.set n.toNat v n.isLt }

/-- The view of an identifier in a slot's value: bits `8o+w-1` to `8o` (10_state.md R35). -/
def viewOf {w : Nat} (r : RegId w) (slot : Word) : BitVec w := slot.extractLsb' (8 * r.offset) w

/-- A slot's value with the bits of the view replaced (10_state.md R36). -/
def replaceView {w : Nat} (r : RegId w) (slot : Word) (v : BitVec w) : Word :=
  let mask := (BitVec.allOnes w).setWidth 64 <<< (8 * r.offset)
  (slot &&& ~~~mask) ||| (v.setWidth 64 <<< (8 * r.offset))

/-- `x[id]`: read through an identifier (R35). -/
def State.readReg {w : Nat} (s : State) (r : RegId w) : BitVec w := viewOf r (s.readGpr r.slot)

/-- `x[id] <- v`: write through an identifier; a 32-bit write clears bits 63:32 of the slot when
`ZEXT32` is true (R36, R37). -/
def State.writeReg {w : Nat} (s : State) (r : RegId w) (v : BitVec w) : State :=
  let new := replaceView r (s.readGpr r.slot) v
  s.writeGpr r.slot (if w = 32 ∧ s.params.zext32 then new &&& 0xFFFFFFFF#64 else new)

/-- `ea = GPR[base] + sext_64(d8)`, modulo 2^64 (20_memory.md R59). -/
def State.ea (s : State) (m : MemRef) : Word := s.readGpr m.base + m.d8.signExtend 64

end Sys2Proof.Machine
end

