-- ==== Sys2Proof/Machine/Render.lean ====
section
/-! DEFINITION. The text of the trace port: the reference rendering of 30_encoding.md R104, over the
register names of 10_state.md R34, and the conventions that every rendering keeps to (00_scope.md
R26). -/

namespace Sys2Proof

/-- The 64-bit names, slot 0 first (R34). -/
def names64 : List String :=
  ["rax", "rcx", "rdx", "rbx", "rsp", "rbp", "rsi", "rdi",
   "r8", "r9", "r10", "r11", "r12", "r13", "r14", "r15"]

/-- The 32-bit names (R34). -/
def names32 : List String :=
  ["eax", "ecx", "edx", "ebx", "esp", "ebp", "esi", "edi",
   "r8d", "r9d", "r10d", "r11d", "r12d", "r13d", "r14d", "r15d"]

/-- The 16-bit names (R34). -/
def names16 : List String :=
  ["ax", "cx", "dx", "bx", "sp", "bp", "si", "di",
   "r8w", "r9w", "r10w", "r11w", "r12w", "r13w", "r14w", "r15w"]

/-- The names of the low bytes (R34). -/
def namesLow8 : List String :=
  ["al", "cl", "dl", "bl", "spl", "bpl", "sil", "dil",
   "r8b", "r9b", "r10b", "r11b", "r12b", "r13b", "r14b", "r15b"]

/-- The names of the second bytes of slots 0 to 3 (R34). -/
def namesHigh8 : List String := ["ah", "ch", "dh", "bh"]

/-- Every register name (R34). -/
def registerNames : List String := names64 ++ names32 ++ names16 ++ namesLow8 ++ namesHigh8

/-- The 64-bit name of a slot. -/
def name64 (n : RegNum) : String := names64.getD n.toNat ""

/-- The 32-bit name of a slot. -/
def name32 (n : RegNum) : String := names32.getD n.toNat ""

/-- The 16-bit name of a slot. -/
def name16 (n : RegNum) : String := names16.getD n.toNat ""

/-- The name of the low byte of a slot. -/
def nameLow8 (n : RegNum) : String := namesLow8.getD n.toNat ""

/-- The name of the second byte of slot 0 to 3. -/
def nameHigh8 (n : BitVec 2) : String := namesHigh8.getD n.toNat ""

/-- The name of a register at a variable width. -/
def Width.name (w : Width) (n : RegNum) : String :=
  match w with
  | .w16 => name16 n
  | .w32 => name32 n
  | .w64 => name64 n

/-- The name of an 8-bit identifier. -/
def Reg8.name : Reg8 → String
  | .low n => nameLow8 n
  | .high n => nameHigh8 n

/-- A number in decimal. -/
def decNat (n : Nat) : String := String.ofList (Nat.toDigits 10 n)

/-- A signed number in decimal, `dec` of R104. -/
def decInt (i : Int) : String := if i < 0 then "-" ++ decNat i.natAbs else decNat i.natAbs

/-- `hex` of R104: `0x` and the lower-case hex digits, no leading zeros. -/
def hexNat (n : Nat) : String := "0x" ++ String.ofList (Nat.toDigits 16 n)

/-- A signed distance with its sign written, as in `[base-D]` and `$+N`. At zero the sign is `+`: R104
states that for a memory operand, and for a branch target it is the model's choice (DESIGN CHOICE,
safe; log 20). -/
def signedNat (i : Int) : String := (if i < 0 then "-" else "+") ++ decNat i.natAbs

/-- A memory operand in brackets: `base+D` or `base-D` (R104). -/
def MemRef.text (m : MemRef) : String := "[" ++ name64 m.base ++ signedNat m.d8.toInt ++ "]"

/-- A branch target: `$` and the distance from the branch's first byte (R104); a branch to itself
reads `$+0` (DESIGN CHOICE, safe; log 20). -/
def targetText (len : Nat) (d : Int) : String := "$" ++ signedNat (len + d)

/-- The reference rendering (R104). -/
def render (i : Instr) : String :=
  match i with
  | .movRmR _ w rm reg => "mov " ++ w.name rm ++ ", " ++ w.name reg
  | .movRImm _ w r imm => "mov " ++ w.name r ++ ", " ++ hexNat (shortImm w imm).toNat
  | .movRmImm _ w rm imm => "mov " ++ w.name rm ++ ", " ++ decInt (modRMImm w imm).toInt
  | .movR8M8 _ reg mem => "mov " ++ reg.name ++ ", " ++ mem.text
  | .movM8R8 _ mem reg => "mov " ++ mem.text ++ ", " ++ reg.name
  | .movR32M32 _ reg mem => "mov " ++ name32 reg ++ ", " ++ mem.text
  | .movM32R32 _ mem reg => "mov " ++ mem.text ++ ", " ++ name32 reg
  | .movM32Imm32 _ mem imm => "mov dword " ++ mem.text ++ ", " ++ decInt imm.toInt
  | .xorRmR _ w rm reg => "xor " ++ w.name rm ++ ", " ++ w.name reg
  | .subRmImm8 _ w rm imm => "sub " ++ w.name rm ++ ", " ++ decInt (subImm8 w imm).toInt
  | .subRmImm32 _ w rm imm => "sub " ++ w.name rm ++ ", " ++ decInt (subImm32 w imm).toInt
  | .cmpM8Imm8 _ mem imm => "cmp byte " ++ mem.text ++ ", " ++ decNat imm.toNat
  | .pushR64 _ r => "push " ++ name64 r
  | .popR64 _ r => "pop " ++ name64 r
  | .jeRel8 cb => "je short " ++ targetText i.length (branchDisp cb)
  | .jeRel32 cd => "je near " ++ targetText i.length (branchDisp cd)
  | .jmpRel32 cd => "jmp near " ++ targetText i.length (branchDisp cd)
  | .endbr64 => "endbr64"
  | .hlt => "hlt"
  | .ret => "ret"

/-! ### What R26 fixes of every rendering -/

/-- The names of the register operands of an instruction, the base of its memory operand among
them (00_scope.md R26). -/
def Instr.registers : Instr → List String
  | .movRmR _ w rm reg => [w.name rm, w.name reg]
  | .movRImm _ w r _ => [w.name r]
  | .movRmImm _ w rm _ => [w.name rm]
  | .movR8M8 _ reg mem => [reg.name, name64 mem.base]
  | .movM8R8 _ mem reg => [name64 mem.base, reg.name]
  | .movR32M32 _ reg mem => [name32 reg, name64 mem.base]
  | .movM32R32 _ mem reg => [name64 mem.base, name32 reg]
  | .movM32Imm32 _ mem _ => [name64 mem.base]
  | .xorRmR _ w rm reg => [w.name rm, w.name reg]
  | .subRmImm8 _ w rm _ => [w.name rm]
  | .subRmImm32 _ w rm _ => [w.name rm]
  | .cmpM8Imm8 _ mem _ => [name64 mem.base]
  | .pushR64 _ r => [name64 r]
  | .popR64 _ r => [name64 r]
  | .jeRel8 _ => []
  | .jeRel32 _ => []
  | .jmpRel32 _ => []
  | .endbr64 => []
  | .hlt => []
  | .ret => []

/-- The memory operand that an instruction names in brackets (30_encoding.md R87, R94). -/
def Instr.memOperand : Instr → Option MemRef
  | .movR8M8 _ _ mem => some mem
  | .movM8R8 _ mem _ => some mem
  | .movR32M32 _ _ mem => some mem
  | .movM32R32 _ mem _ => some mem
  | .movM32Imm32 _ mem _ => some mem
  | .cmpM8Imm8 _ mem _ => some mem
  | .movRmR _ _ _ _ => none
  | .movRImm _ _ _ _ => none
  | .movRmImm _ _ _ _ => none
  | .xorRmR _ _ _ _ => none
  | .subRmImm8 _ _ _ _ => none
  | .subRmImm32 _ _ _ _ => none
  | .pushR64 _ _ => none
  | .popR64 _ _ => none
  | .jeRel8 _ => none
  | .jeRel32 _ => none
  | .jmpRel32 _ => none
  | .endbr64 => none
  | .hlt => none
  | .ret => none

/-- The immediate of the short-form move (30_encoding.md R89). -/
def Instr.shortFormImm : Instr → Option Nat
  | .movRImm _ w _ imm => some (shortImm w imm).toNat
  | .movRmR _ _ _ _ => none
  | .movRmImm _ _ _ _ => none
  | .movR8M8 _ _ _ => none
  | .movM8R8 _ _ _ => none
  | .movR32M32 _ _ _ => none
  | .movM32R32 _ _ _ => none
  | .movM32Imm32 _ _ _ => none
  | .xorRmR _ _ _ _ => none
  | .subRmImm8 _ _ _ _ => none
  | .subRmImm32 _ _ _ _ => none
  | .cmpM8Imm8 _ _ _ => none
  | .pushR64 _ _ => none
  | .popR64 _ _ => none
  | .jeRel8 _ => none
  | .jeRel32 _ => none
  | .jmpRel32 _ => none
  | .endbr64 => none
  | .hlt => none
  | .ret => none

/-- The words of a text: what stands between the characters that are neither letter nor digit. -/
def words : List Char → List (List Char)
  | [] => [[]]
  | c :: cs =>
    if c.isAlphanum then
      match words cs with
      | [] => [[c]]
      | w :: ws => (c :: w) :: ws
    else [] :: words cs

/-- No register name stands in a text with an upper-case letter. -/
def namesLowerCase (t : List Char) : Bool :=
  (words t).all fun w =>
    !(registerNames.map String.toList).contains (w.map Char.toLower) || w.map Char.toLower == w

/-- Whether some tail of a text passes a test. -/
def anyTail (f : List Char → Bool) : List Char → Bool
  | [] => f []
  | c :: cs => f (c :: cs) || anyTail f cs

/-- The signs a displacement can be written with: either one at zero. -/
def signs (d : Int) : List Char := if d < 0 then ['-'] else if d = 0 then ['+', '-'] else ['+']

/-- Whether a text begins with `[base+disp]` or `[base-disp]`, `disp` being some letters and digits
(log 7). -/
def MemRef.beginsText (m : MemRef) (t : List Char) : Bool :=
  (signs m.d8.toInt).any fun sign =>
    let start := '[' :: ((name64 m.base).toList ++ [sign])
    let disp := (t.drop start.length).takeWhile Char.isAlphanum
    t.take start.length == start && !disp.isEmpty &&
      (t.drop (start.length + disp.length)).head? == some ']'

/-- The value of a hexadecimal digit, in either case. -/
def hexDigit (c : Char) : Option Nat :=
  if '0' ≤ c ∧ c ≤ '9' then some (c.toNat - 48)
  else if 'a' ≤ c ∧ c ≤ 'f' then some (c.toNat - 87)
  else if 'A' ≤ c ∧ c ≤ 'F' then some (c.toNat - 55)
  else none

/-- The value of hexadecimal digits read after those worth `v`. -/
def hexValue (v : Nat) : List Char → Option Nat
  | [] => some v
  | c :: cs =>
    match hexDigit c with
    | none => none
    | some d => hexValue (16 * v + d) cs

/-- Whether a word is `0x` and the hexadecimal digits, at least one, of a number. -/
def isHexOf (v : Nat) : List Char → Bool
  | '0' :: 'x' :: c :: cs => hexValue 0 (c :: cs) == some v
  | _ => false

/-- The three properties that R26 fixes of every rendering: the register operands stand in the text
under their lower-case names and no register name stands there in another case; a memory operand is
`[base+disp]` or `[base-disp]`; the immediate of the short-form move is in hex with a leading `0x`. -/
def Instr.conventions (i : Instr) (text : String) : Bool :=
  let t := text.toList
  i.registers.all (fun n => (words t).contains n.toList) && namesLowerCase t &&
    (match i.memOperand with
      | none => true
      | some m => anyTail m.beginsText t) &&
    (match i.shortFormImm with
      | none => true
      | some v => (words t).any (isHexOf v))

/-- The line the trace port writes for an instruction under a run's parameters (00_scope.md R16,
R26). A renderer other than the reference writes its own text where that keeps to the conventions of
R26, and the reference text where it does not (log 7). -/
def Params.line (p : Params) (i : Instr) : String :=
  match p.renderer with
  | .reference => render i
  | .other k =>
    if i.conventions (Config.otherRender k i) then Config.otherRender k i else render i

end Sys2Proof
end

