-- ==== Sys2Proof/Machine/Ops.lean ====
section
/-! DEFINITION. The operations the meanings share: stack memory (20_memory.md R58 to R62), taking a
fault (60_exceptions.md R135), completing an instruction (40_data_movement.md R105), branching
(42_control.md R121), fetching and decoding (30_encoding.md R97), and starting a run
(70_reset_and_hazards.md R147). The block has no return from a fault (60_exceptions.md R137). -/

namespace Sys2Proof.Machine

/-- The result type of a meaning. -/
abbrev Result := Host.Outcome State Fault Refusal

/-! ### Stack memory -/

/-- What an address that the memory does not list reads as (log 4). -/
def Memory.unlisted : Byte := 0

/-- The canonical form: addresses strictly rising, and no entry equal to what an unlisted address
reads as. -/
def Memory.wf : Memory → Bool
  | [] => true
  | c :: rest => c.2 != Memory.unlisted && rest.all (fun d => c.1 < d.1) && Memory.wf rest

/-- The byte at an address. -/
def Memory.readByte : Memory → Nat → Byte
  | [], _ => Memory.unlisted
  | c :: rest, a => if c.1 = a then c.2 else Memory.readByte rest a

/-- Store one byte, keeping the canonical form. -/
def Memory.writeByte : Memory → Nat → Byte → Memory
  | [], a, v => if v = Memory.unlisted then [] else [(a, v)]
  | c :: rest, a, v =>
    if a < c.1 then if v = Memory.unlisted then c :: rest else (a, v) :: c :: rest
    else if c.1 = a then if v = Memory.unlisted then rest else (a, v) :: rest
    else c :: Memory.writeByte rest a v

/-- The `n` bytes from address `a` up, the lowest address first. -/
def Memory.readBytes (m : Memory) : Nat → Nat → List Byte
  | _, 0 => []
  | a, n + 1 => m.readByte a :: Memory.readBytes m (a + 1) n

/-- Store bytes from address `a` up. -/
def Memory.writeBytes (m : Memory) : Nat → List Byte → Memory
  | _, [] => m
  | a, b :: bs => Memory.writeBytes (m.writeByte a b) (a + 1) bs

/-- Whether an access of `n` bytes at `ea` is in range: `ea <= STACK_SIZE - n` as unsigned integers
(R60). -/
def State.inRange (s : State) (ea : Word) (n : Nat) : Bool := ea.toNat + n ≤ s.params.stackSize

/-- `MemRead(ea, w/8)`: the little-endian value, or STACK_OUT_OF_RANGE (R60, R61). -/
def State.memRead (s : State) (ea : Word) (w : Nat) : Except FaultCode (BitVec w) :=
  if s.inRange ea (w / 8) then
    .ok (BitVec.ofNat w (leValue (s.mem.readBytes ea.toNat (w / 8))))
  else .error .stackOutOfRange

/-- `MemWrite(ea, w/8, v)`: store the value little-endian, or STACK_OUT_OF_RANGE (R60, R62). -/
def State.memWrite {w : Nat} (s : State) (ea : Word) (v : BitVec w) : Except FaultCode State :=
  if s.inRange ea (w / 8) then
    .ok { s with mem := s.mem.writeBytes ea.toNat (leBytes (w / 8) v.toNat) }
  else .error .stackOutOfRange

/-! ### Completing and faulting -/

/-- Take a fault: the run status becomes `faulted` with the code and the `ip` of the instruction, the
prefix latches are cleared, and nothing else changes (60_exceptions.md R135; log 8). -/
def raiseFault (c : FaultCode) (s : State) : Result :=
  .next { s with run := .faulted c s.ip, rex := none, osz := false }

/-- Go on with the value that a read gives, or take the fault it raises; nothing has changed before it
(R60, 60_exceptions.md R135). -/
def State.load (s : State) (ea : Word) (w : Nat) (k : BitVec w → Result) : Result :=
  match s.memRead ea w with
  | .error c => raiseFault c s
  | .ok v => k v

/-- Go on with the state that a store gives, or take the fault it raises; nothing has changed before
it (R60, 60_exceptions.md R135). -/
def State.store {w : Nat} (s : State) (ea : Word) (v : BitVec w) (k : State → Result) : Result :=
  match s.memWrite ea v with
  | .error c => raiseFault c s
  | .ok t => k t

/-- `emit`: append one line to the trace when the sink is attached (00_scope.md R16, R29). -/
def State.emit (s : State) (i : Instr) : State :=
  if s.sinkAttached then { s with trace := s.trace ++ [s.params.line i] } else s

/-- What every completing instruction does besides its own effect: `ip` takes its next value, one
line is emitted, and the prefix latches are cleared (10_state.md R46, 40_data_movement.md R105). -/
def State.commit (s : State) (i : Instr) (target : Int) : State :=
  { s.emit i with ip := target, rex := none, osz := false }

/-- Complete an instruction that is no taken branch: `pc <- ip + L` (10_state.md R41). -/
def complete (i : Instr) (s : State) : Result := .next (s.commit i (s.ip + i.length))

/-- A taken branch: the target is `ip + L + d` in the integers, and a target outside `[0, len]`
raises BRANCH_OUT_OF_RANGE (42_control.md R121). -/
def branch (i : Instr) (d : Int) (s : State) : Result :=
  let target := s.ip + i.length + d
  if target < 0 ∨ s.code.length < target then raiseFault .branchOutOfRange s
  else .next (s.commit i target)

/-- End the run with a status: `ip` stays at the instruction (42_control.md R126, R127). -/
def endRun (i : Instr) (status : RunStatus) (s : State) : Result :=
  .next { s.commit i s.ip with run := status }

/-! ### Fetch and launch -/

/-- Fetch and decode the instruction at `ip` (30_encoding.md R97). -/
def State.fetch (s : State) : Except FaultCode Instr :=
  match decodeAt s.code s.ip with
  | .error c => .error c
  | .ok (i, _) => .ok i

/-- The prefix latches as the decoder leaves them when it hands an instruction over (10_state.md R44,
R45; log 11). -/
def State.latch (s : State) (p : Prefixes) : State := { s with rex := p.rex, osz := p.osz }

/-- Start a run, or refuse a code buffer longer than `CODE_MAX` (70_reset_and_hazards.md R146,
R147), or a register file too small for the registers that the spec names (log 16). -/
def launch (l : Launch) : Result :=
  if !l.params.holdsRegisters then
    .refused (.registerFileTooSmall l.params.numSlots l.params.slotBytes)
  else if l.params.codeMax < l.code.length then .refused (.codeTooLong l.code.length)
  else .next (State.ofLaunch l)

end Sys2Proof.Machine
end

