-- ==== Sys2Proof/Machine/Arith.lean ====
section
/-! DEFINITION. XOR, SUB and CMP (41_arith_logic.md). Arithmetic is on `w`-bit vectors modulo 2^w
(R116). -/

namespace Sys2Proof.Machine

/-- Row 9, XOR r/m, r: `v <- x[rm] XOR x[reg]; x[rm] <- v; eq <- Unset` (R117). -/
def execXorRmR (pre : Prefixes) (w : Width) (rm reg : RegNum) (s : State) : Result :=
  complete (.xorRmR pre w rm reg)
    (s.writeReg (w.reg rm) (s.readReg (w.reg rm) ^^^ s.readReg (w.reg reg))).clearEq

/-- Row 10, SUB r/m, imm8: `v <- x[rm] - sext_w(ib); x[rm] <- v; eq <- Unset` (R118). -/
def execSubRmImm8 (pre : Prefixes) (w : Width) (rm : RegNum) (imm : BitVec 8) (s : State) :
    Result :=
  complete (.subRmImm8 pre w rm imm)
    (s.writeReg (w.reg rm) (s.readReg (w.reg rm) - subImm8 w imm)).clearEq

/-- Row 11, SUB r/m, imm32: `v <- x[rm] - sext_w(id); x[rm] <- v; eq <- Unset` (R119). -/
def execSubRmImm32 (pre : Prefixes) (w : Width) (rm : RegNum) (imm : BitVec 32) (s : State) :
    Result :=
  complete (.subRmImm32 pre w rm imm)
    (s.writeReg (w.reg rm) (s.readReg (w.reg rm) - subImm32 w imm)).clearEq

/-- Row 12, CMP m8, imm8: `v <- MemRead(ea, 1); eq <- Set(v == ib)` (R120). -/
def execCmpM8Imm8 (pre : Prefixes) (mem : MemRef) (imm : BitVec 8) (s : State) : Result :=
  s.load (s.ea mem) 8 fun v =>
    complete (.cmpM8Imm8 pre mem imm) (s.compareEq v imm)

end Sys2Proof.Machine
end

