-- ==== Sys2Proof/Machine/Control.lean ====
section
/-! DEFINITION. JE, JMP, ENDBR64, HLT and RET (42_control.md). -/

namespace Sys2Proof.Machine

/-- JE with displacement `d`: EQ_UNSET on an unset latch, a branch on `Set(true)`, the next
instruction on `Set(false)`, whose target is not checked (R122, R123; 10_state.md R49). -/
def jumpIfEqual (i : Instr) (d : Int) (s : State) : Result :=
  match s.eq with
  | .unset => raiseFault .eqUnset s
  | .set true => branch i d s
  | .set false => complete i s

/-- Row 15, JE rel8 (R122). -/
def execJeRel8 (cb : BitVec 8) (s : State) : Result := jumpIfEqual (.jeRel8 cb) (branchDisp cb) s

/-- Row 16, JE rel32 (R123). -/
def execJeRel32 (cd : BitVec 32) (s : State) : Result :=
  jumpIfEqual (.jeRel32 cd) (branchDisp cd) s

/-- Row 17, JMP rel32: `pc <- branch(ip, 5, signed(cd))` (R124). -/
def execJmpRel32 (cd : BitVec 32) (s : State) : Result := branch (.jmpRel32 cd) (branchDisp cd) s

/-- Row 18, ENDBR64: `pc <- ip + 4` (R125). -/
def execEndbr64 (s : State) : Result := complete .endbr64 s

/-- Row 19, HLT: `run <- Halted` (R126). -/
def execHlt (s : State) : Result := endRun .hlt .halted s

/-- Row 20, RET: `run <- Returned`; nothing is popped (R127). -/
def execRet (s : State) : Result := endRun .ret .returned s

end Sys2Proof.Machine
end

