-- ==== Sys2Proof/Machine/DataMovement.lean ====
section
/-! DEFINITION. MOV, PUSH and POP (40_data_movement.md). Each meaning evaluates its reads and checks
on the state before the instruction (R105, R153). -/

namespace Sys2Proof.Machine

/-- Row 1, MOV r/m, r: `v <- x[reg]; x[rm] <- v; pc <- ip + L` (R106). -/
def execMovRmR (pre : Prefixes) (w : Width) (rm reg : RegNum) (s : State) : Result :=
  complete (.movRmR pre w rm reg) (s.writeReg (w.reg rm) (s.readReg (w.reg reg)))

/-- Row 2, MOV r, imm: `x[r] <- imm; pc <- ip + L` (R107). -/
def execMovRImm (pre : Prefixes) (w : Width) (r : RegNum) (imm : BitVec 64) (s : State) : Result :=
  complete (.movRImm pre w r imm) (s.writeReg (w.reg r) (shortImm w imm))

/-- Row 3, MOV r/m, imm: `x[rm] <- v; pc <- ip + L`, `v` the immediate, sign-extended at 64 (R108). -/
def execMovRmImm (pre : Prefixes) (w : Width) (rm : RegNum) (imm : BitVec 32) (s : State) :
    Result :=
  complete (.movRmImm pre w rm imm) (s.writeReg (w.reg rm) (modRMImm w imm))

/-- Row 4, MOV r8, m8: `v <- MemRead(ea, 1); x[reg] <- v` (R109). -/
def execMovR8M8 (pre : Prefixes) (reg : Reg8) (mem : MemRef) (s : State) : Result :=
  s.load (s.ea mem) 8 fun v =>
    complete (.movR8M8 pre reg mem) (s.writeReg reg.id v)

/-- Row 5, MOV m8, r8: `MemWrite(ea, 1, x[reg])` (R110). -/
def execMovM8R8 (pre : Prefixes) (mem : MemRef) (reg : Reg8) (s : State) : Result :=
  s.store (s.ea mem) (s.readReg reg.id) fun t =>
    complete (.movM8R8 pre mem reg) t

/-- Row 6, MOV r32, m32: `v <- MemRead(ea, 4); x[reg] <- v` (R111). -/
def execMovR32M32 (pre : Prefixes) (reg : RegNum) (mem : MemRef) (s : State) : Result :=
  s.load (s.ea mem) 32 fun v =>
    complete (.movR32M32 pre reg mem) (s.writeReg (reg32 reg) v)

/-- Row 7, MOV m32, r32: `MemWrite(ea, 4, x[reg])` (R112). -/
def execMovM32R32 (pre : Prefixes) (mem : MemRef) (reg : RegNum) (s : State) : Result :=
  s.store (s.ea mem) (s.readReg (reg32 reg)) fun t =>
    complete (.movM32R32 pre mem reg) t

/-- Row 8, MOV m32, imm32: `MemWrite(ea, 4, id)` (R113). -/
def execMovM32Imm32 (pre : Prefixes) (mem : MemRef) (imm : BitVec 32) (s : State) : Result :=
  s.store (s.ea mem) imm fun t =>
    complete (.movM32Imm32 pre mem imm) t

/-- Row 13, PUSH r64: `v <- GPR[r]; a <- GPR[4] - 8; MemWrite(a, 8, v); GPR[4] <- a` (R114). -/
def execPushR64 (pre : Prefixes) (r : RegNum) (s : State) : Result :=
  s.store (s.readGpr rsp - 8) (s.readGpr r) fun t =>
    complete (.pushR64 pre r) (t.writeGpr rsp (s.readGpr rsp - 8))

/-- Row 14, POP r64: `a <- GPR[4]; v <- MemRead(a, 8); GPR[4] <- a + 8; GPR[r] <- v`, the second
register write after the first (R115). -/
def execPopR64 (pre : Prefixes) (r : RegNum) (s : State) : Result :=
  s.load (s.readGpr rsp) 64 fun v =>
    complete (.popR64 pre r) ((s.writeGpr rsp (s.readGpr rsp + 8)).writeGpr r v)

end Sys2Proof.Machine
end

