-- ==== Sys2Proof/Machine/Dispatch.lean ====
section
/-! DEFINITION. One arm per instruction: the call of its meaning (70_reset_and_hazards.md R149). -/

namespace Sys2Proof.Machine

def exec (i : Instr) (s : State) : Host.Outcome State Fault Refusal :=
  match i with
  | .movRmR pre w rm reg => Sys2Proof.Machine.execMovRmR pre w rm reg s
  | .movRImm pre w r imm => Sys2Proof.Machine.execMovRImm pre w r imm s
  | .movRmImm pre w rm imm => Sys2Proof.Machine.execMovRmImm pre w rm imm s
  | .movR8M8 pre reg mem => Sys2Proof.Machine.execMovR8M8 pre reg mem s
  | .movM8R8 pre mem reg => Sys2Proof.Machine.execMovM8R8 pre mem reg s
  | .movR32M32 pre reg mem => Sys2Proof.Machine.execMovR32M32 pre reg mem s
  | .movM32R32 pre mem reg => Sys2Proof.Machine.execMovM32R32 pre mem reg s
  | .movM32Imm32 pre mem imm => Sys2Proof.Machine.execMovM32Imm32 pre mem imm s
  | .xorRmR pre w rm reg => Sys2Proof.Machine.execXorRmR pre w rm reg s
  | .subRmImm8 pre w rm imm => Sys2Proof.Machine.execSubRmImm8 pre w rm imm s
  | .subRmImm32 pre w rm imm => Sys2Proof.Machine.execSubRmImm32 pre w rm imm s
  | .cmpM8Imm8 pre mem imm => Sys2Proof.Machine.execCmpM8Imm8 pre mem imm s
  | .pushR64 pre r => Sys2Proof.Machine.execPushR64 pre r s
  | .popR64 pre r => Sys2Proof.Machine.execPopR64 pre r s
  | .jeRel8 cb => Sys2Proof.Machine.execJeRel8 cb s
  | .jeRel32 cd => Sys2Proof.Machine.execJeRel32 cd s
  | .jmpRel32 cd => Sys2Proof.Machine.execJmpRel32 cd s
  | .endbr64 => Sys2Proof.Machine.execEndbr64 s
  | .hlt => Sys2Proof.Machine.execHlt s
  | .ret => Sys2Proof.Machine.execRet s

end Sys2Proof.Machine
end

