-- ==== Sys2Proof/Machine/Step.lean ====
section
/-! DEFINITION. The step (70_reset_and_hazards.md R149), and the state with an instruction placed
where the next step fetches it. -/

namespace Sys2Proof.Machine

/-- One instruction: a terminal state has no step; a running one decodes at `ip` and runs what it
decoded, or takes the fault that decoding raises (R149). The latches hold the instruction's prefixes
while it runs (10_state.md R44, R45; log 11). -/
def step (s : State) : Host.Outcome State Fault Refusal :=
  if s.run = .running then
    match s.fetch with
    | .error c => raiseFault c s
    | .ok i => exec i (s.latch i.prefixes)
  else .fault (.runEnded s.run)

/-- `s` with the bytes of a table word in its code buffer at `ip`, the buffer made long enough to
reach that offset, and the run in progress, so that the next step fetches and runs that instruction.
An `ip` below 0, which names no byte, becomes 0 (log 13, log 14). -/
def State.withFetchWord (s : State) (nbits w : Nat) : State :=
  let off := s.ip.toNat
  let bs := tableBytes nbits w
  let before := s.code.take off ++ List.replicate (off - s.code.length) 0
  { s with
    code := before ++ bs ++ s.code.drop (off + bs.length)
    ip := off
    run := .running }

end Sys2Proof.Machine
end

