-- ==== Sys2Proof/Safety.lean ====
section
/-! DEFINITION. The terms in which claims about the machine are made: the invariants of states
between steps, the state after a fault, and what an instruction may and may not change. -/

namespace Sys2Proof.Machine

/-! ### Invariants -/

/-- What holds of every state between steps (10_state.md R54): the prefix latches are clear, and a
running state's `ip` lies in the code buffer or at its end. -/
structure Inv (s : State) : Prop where
  rexClear : s.rex = none
  oszClear : s.osz = false
  ipInCode : s.run = .running → 0 ≤ s.ip ∧ s.ip ≤ s.code.length

/-- The stack memory is in canonical form and lists only addresses below STACK_SIZE (20_memory.md
R58). -/
structure MemInv (s : State) : Prop where
  canonical : s.mem.wf = true
  inBuffer : ∀ c ∈ s.mem, c.1 < s.params.stackSize

/-! ### Outcomes -/

/-- The state after a fault: the status records the code and the offset of the instruction, the
prefix latches are clear, and all else is as before (60_exceptions.md R135). -/
def State.afterFault (c : FaultCode) (s : State) : State :=
  { s with run := .faulted c s.ip, rex := none, osz := false }

/-- Apply a function to the next state, if there is one. -/
def mapNext (f : State → State) : Host.Outcome State Fault Refusal → Host.Outcome State Fault Refusal
  | .next s => .next (f s)
  | .fault r => .fault r
  | .refused r => .refused r

/-! ### Frames -/

/-- The launch inputs are as before (10_state.md, preamble). -/
structure SameInputs (s t : State) : Prop where
  code : t.code = s.code
  sinkAttached : t.sinkAttached = s.sinkAttached
  params : t.params = s.params

/-- Every slot but the ones listed is as before, and so are the bytes of the register file that no
register identifier names. -/
structure SameGprExcept (ns : List RegNum) (s t : State) : Prop where
  slots : ∀ n : RegNum, n ∉ ns → t.readGpr n = s.readGpr n
  spare : t.spare = s.spare

/-- Every byte of memory reads as before. -/
def SameMemory (s t : State) : Prop := ∀ a : Nat, t.mem.readByte a = s.mem.readByte a

/-- Every byte outside the `n` bytes from `base` up reads as before. -/
def SameMemoryOutside (base n : Nat) (s t : State) : Prop :=
  ∀ a : Nat, ¬ (base ≤ a ∧ a < base + n) → t.mem.readByte a = s.mem.readByte a

/-- Registers, equality latch and memory are as before. -/
structure SameData (s t : State) : Prop where
  gpr : SameGprExcept [] s t
  eq : t.eq = s.eq
  mem : SameMemory s t

/-- The instruction has completed and the run goes on at `target`: the latches are clear, the trace
has its line when the sink is attached, the launch inputs are as before (40_data_movement.md R105,
00_scope.md R16, 10_state.md R46). -/
structure CompletedAt (i : Instr) (s t : State) (target : Int) : Prop where
  ip : t.ip = target
  run : t.run = s.run
  rex : t.rex = none
  osz : t.osz = false
  trace : t.trace = if s.sinkAttached then s.trace ++ [s.params.line i] else s.trace
  inputs : SameInputs s t

/-- The slot of the identifier `r` holds `v` in the bits of the view; its other bits are as before,
but bits 63:32 are 0 after a 32-bit write when `ZEXT32` is true (10_state.md R36, R37). -/
def ViewWritten {w : Nat} (r : RegId w) (v : BitVec w) (s t : State) : Prop :=
  ∀ k < 64, (t.readGpr r.slot).getLsbD k =
    if 8 * r.offset ≤ k ∧ k < 8 * r.offset + w then v.getLsbD (k - 8 * r.offset)
    else if w = 32 ∧ s.params.zext32 = true then false
    else (s.readGpr r.slot).getLsbD k

/-- A multi-byte value in memory, little-endian: byte `k` of `v` stands at `base + k` (20_memory.md
R62, R63). -/
def StoredAt {w : Nat} (base : Nat) (v : BitVec w) (t : State) : Prop :=
  ∀ k < w / 8, t.mem.readByte (base + k) = v.extractLsb' (8 * k) 8

end Sys2Proof.Machine

namespace Sys2Proof

/-! ### What an instruction reads and writes -/

/-- The slots an instruction may write. -/
def Instr.writes : Instr → List RegNum
  | .movRmR _ _ rm _ => [rm]
  | .movRImm _ _ r _ => [r]
  | .movRmImm _ _ rm _ => [rm]
  | .movR8M8 _ reg _ => [reg.id.slot]
  | .movM8R8 _ _ _ => []
  | .movR32M32 _ reg _ => [reg]
  | .movM32R32 _ _ _ => []
  | .movM32Imm32 _ _ _ => []
  | .xorRmR _ _ rm _ => [rm]
  | .subRmImm8 _ _ rm _ => [rm]
  | .subRmImm32 _ _ rm _ => [rm]
  | .cmpM8Imm8 _ _ _ => []
  | .pushR64 _ _ => [rsp]
  | .popR64 _ r => [rsp, r]
  | .jeRel8 _ => []
  | .jeRel32 _ => []
  | .jmpRel32 _ => []
  | .endbr64 => []
  | .hlt => []
  | .ret => []

/-- The first address and the number of the bytes an instruction stores to (20_memory.md R65). -/
def Instr.stores (i : Instr) (s : Machine.State) : Option (Nat × Nat) :=
  match i with
  | .movM8R8 _ mem _ => some ((s.ea mem).toNat, 1)
  | .movM32R32 _ mem _ => some ((s.ea mem).toNat, 4)
  | .movM32Imm32 _ mem _ => some ((s.ea mem).toNat, 4)
  | .pushR64 _ _ => some ((s.readGpr rsp - 8).toNat, 8)
  | .movRmR _ _ _ _ => none
  | .movRImm _ _ _ _ => none
  | .movRmImm _ _ _ _ => none
  | .movR8M8 _ _ _ => none
  | .movR32M32 _ _ _ => none
  | .xorRmR _ _ _ _ => none
  | .subRmImm8 _ _ _ _ => none
  | .subRmImm32 _ _ _ _ => none
  | .cmpM8Imm8 _ _ _ => none
  | .popR64 _ _ => none
  | .jeRel8 _ => none
  | .jeRel32 _ => none
  | .jmpRel32 _ => none
  | .endbr64 => none
  | .hlt => none
  | .ret => none

/-- The first address and the number of the bytes an instruction reads or writes (20_memory.md
R65). -/
def Instr.accesses (i : Instr) (s : Machine.State) : Option (Nat × Nat) :=
  match i with
  | .movR8M8 _ _ mem => some ((s.ea mem).toNat, 1)
  | .movM8R8 _ mem _ => some ((s.ea mem).toNat, 1)
  | .movR32M32 _ _ mem => some ((s.ea mem).toNat, 4)
  | .movM32R32 _ mem _ => some ((s.ea mem).toNat, 4)
  | .movM32Imm32 _ mem _ => some ((s.ea mem).toNat, 4)
  | .cmpM8Imm8 _ mem _ => some ((s.ea mem).toNat, 1)
  | .pushR64 _ _ => some ((s.readGpr rsp - 8).toNat, 8)
  | .popR64 _ _ => some ((s.readGpr rsp).toNat, 8)
  | .movRmR _ _ _ _ => none
  | .movRImm _ _ _ _ => none
  | .movRmImm _ _ _ _ => none
  | .xorRmR _ _ _ _ => none
  | .subRmImm8 _ _ _ _ => none
  | .subRmImm32 _ _ _ _ => none
  | .jeRel8 _ => none
  | .jeRel32 _ => none
  | .jmpRel32 _ => none
  | .endbr64 => none
  | .hlt => none
  | .ret => none

/-- The displacement of a branch as an integer, `cb` or `cd` (30_encoding.md R90). -/
def Instr.displacement : Instr → Option Int
  | .jeRel8 cb => some cb.toInt
  | .jeRel32 cd => some cd.toInt
  | .jmpRel32 cd => some cd.toInt
  | .movRmR _ _ _ _ => none
  | .movRImm _ _ _ _ => none
  | .movRmImm _ _ _ _ => none
  | .movR8M8 _ _ _ => none
  | .movM8R8 _ _ _ => none
  | .movR32M32 _ _ _ => none
  | .movM32R32 _ _ _ => none
  | .movM32Imm32 _ _ _ => none
  | .xorRmR _ _ _ _ => none
  | .subRmImm8 _ _ _ _ => none
  | .subRmImm32 _ _ _ _ => none
  | .cmpM8Imm8 _ _ _ => none
  | .pushR64 _ _ => none
  | .popR64 _ _ => none
  | .endbr64 => none
  | .hlt => none
  | .ret => none

/-- The table of 30_encoding.md R95, row by row, written apart from the decoder's `Form.allowance`:
whether a row takes the prefixes. No row takes REX.X (R81); rows 1 and 9 take W, R, B and `0x66`;
rows 2 and 3 W, B and `0x66`; rows 4 to 7 R and B; rows 8 and 12 to 14 B; rows 10 and 11 W and B;
rows 15 to 20 no prefix at all. -/
def Form.takes (f : Form) (p : Prefixes) : Prop :=
  p.x = false ∧
    match f with
    | .movRmR | .xorRmR => True
    | .movRImm | .movRmImm => p.r = false
    | .movR8M8 | .movM8R8 | .movR32M32 | .movM32R32 => p.w = false ∧ p.osz = false
    | .movM32Imm32 | .cmpM8Imm8 | .pushR64 | .popR64 =>
      p.w = false ∧ p.r = false ∧ p.osz = false
    | .subRmImm8 | .subRmImm32 => p.r = false ∧ p.osz = false
    | .jeRel8 | .jeRel32 | .jmpRel32 | .endbr64 | .hlt | .ret => p.rex = none ∧ p.osz = false

/-- Whether an instruction writes a register through a 32-bit identifier (10_state.md R37). -/
def Instr.writesReg32 (i : Instr) : Bool :=
  i.bits == some 32 &&
    (i.form == .movRmR || i.form == .movRImm || i.form == .movRmImm || i.form == .movR32M32 ||
      i.form == .xorRmR || i.form == .subRmImm8 || i.form == .subRmImm32)

end Sys2Proof
end

