-- ==== Sys2Proof/Certificates/Slice0/Obligations.lean ====
section
/-! DEFINITION. The statements for the provers. A statement marked (spec's choice) rests on a
decision of 92_eei_decisions.md, named D<n>, that the model follows (log 18). -/

open Sys2Proof Sys2Proof.Machine

/-! ### Encoding and decoding -/

/-- The words of eleven instructions of all families, written out from 30_encoding.md R76, R78, R83,
R94 (byte values: the spec's choice D1), decode to the instructions they stand for. -/
def Obligations.SpelledWordsDecode : Prop :=
  decode [0x48, 0x89, 0b11100101, 0xF4] =
    .ok (.movRmR ⟨false, some 0b1000⟩ .w64 5 4, [0xF4]) ∧
  decode [0x66, 0x41, 0b10111000, 0x09, 0x00] =
    .ok (.movRImm ⟨true, some 0b0001⟩ .w16 8 9, []) ∧
  decode [0x8A, 0b01100101, 0xFF] = .ok (.movR8M8 ⟨false, none⟩ (.high 0) ⟨5, 0xFF⟩, []) ∧
  decode [0x40, 0x8A, 0b01100101, 0xFF] =
    .ok (.movR8M8 ⟨false, some 0⟩ (.low 4) ⟨5, 0xFF⟩, []) ∧
  decode [0x44, 0x89, 0b01111101, 0xF8] =
    .ok (.movM32R32 ⟨false, some 0b0100⟩ ⟨5, 0xF8⟩ 15, []) ∧
  decode [0x4D, 0x31, 0b11111111] = .ok (.xorRmR ⟨false, some 0b1101⟩ .w64 15 15, []) ∧
  decode [0x48, 0x83, 0b11101100, 0x10] =
    .ok (.subRmImm8 ⟨false, some 0b1000⟩ .w64 4 0x10, []) ∧
  decode [0x80, 0b01111101, 0xFC, 0x00] = .ok (.cmpM8Imm8 ⟨false, none⟩ ⟨5, 0xFC⟩ 0, []) ∧
  decode [0b01010101] = .ok (.pushR64 ⟨false, none⟩ 5, []) ∧
  decode [0x0F, 0x84, 0x0A, 0x00, 0x00, 0x00] = .ok (.jeRel32 10, []) ∧
  decode [0xF3, 0x0F, 0x1E, 0xFA] = .ok (.endbr64, [])

/-- Decoding the bytes of any well-formed instruction, whatever follows them, gives that instruction
and what follows: no bit of an encoding is dropped (30_encoding.md R94 to R98; byte values: the spec's
choice D1). -/
def Obligations.DecodeOfEncodeIsTheInstruction : Prop :=
  ∀ (i : Instr) (rest : List Byte), WellFormed i = true →
    decode (encode i ++ rest) = .ok (i, rest)

/-- Whatever decodes is well-formed, and its encoding is exactly the bytes that were read: no two
byte strings decode alike, and no other encoding is accepted (30_encoding.md R95, R100; spec's choice
D11, D13). -/
def Obligations.EncodeOfDecodeIsTheBytesRead : Prop :=
  ∀ (bs rest : List Byte) (i : Instr), decode bs = .ok (i, rest) →
    WellFormed i = true ∧ encode i ++ rest = bs

/-- The decoder reads exactly `L` bytes, and `L` is the table of 30_encoding.md R96 over the prefix
count `P` and the width (the size of iq: the spec's choice D27). -/
def Obligations.DecodedLengthIsTheTables : Prop :=
  ∀ (bs rest : List Byte) (i : Instr), decode bs = .ok (i, rest) →
    bs.length = i.length + rest.length ∧ rest = bs.drop i.length ∧
      i.length = match i.form with
        | .movRmR | .xorRmR => i.prefixes.count + 2
        | .movRImm => i.prefixes.count + 1 + (i.bits.getD 0) / 8
        | .movRmImm => i.prefixes.count + 2 + (if i.bits = some 16 then 2 else 4)
        | .movR8M8 | .movM8R8 | .movR32M32 | .movM32R32 => i.prefixes.count + 3
        | .movM32Imm32 => i.prefixes.count + 7
        | .subRmImm8 => i.prefixes.count + 3
        | .subRmImm32 => i.prefixes.count + 6
        | .cmpM8Imm8 => i.prefixes.count + 4
        | .pushR64 | .popR64 => i.prefixes.count + 1
        | .jeRel8 => 2
        | .jeRel32 => 6
        | .jmpRel32 => 5
        | .endbr64 => 4
        | .hlt | .ret => 1

/-- Decoding raises only the four decode faults, and an instruction it accepts ends within the
buffer (30_encoding.md R99; the codes: the spec's choice D26). -/
def Obligations.DecodeRaisesOnlyDecodeFaults : Prop :=
  (∀ (code : List Byte) (ip : Int) (c : FaultCode), decodeAt code ip = .error c →
    c = .unsupportedPrefix ∨ c = .unsupportedOpcode ∨ c = .unsupportedModRM ∨ c = .truncated) ∧
  (∀ (code : List Byte) (ip : Int) (i : Instr) (rest : List Byte),
    decodeAt code ip = .ok (i, rest) → 0 ≤ ip ∧ ip + i.length ≤ code.length)

/-- An instruction cut off anywhere by the end of the code raises TRUNCATED, and so does a fetch at
or beyond `len` (60_exceptions.md R133; the code's number is the spec's choice D26). -/
def Obligations.CutOffInstructionIsTruncated : Prop :=
  (∀ (i : Instr) (k : Nat), WellFormed i = true → k < (encode i).length →
    decode ((encode i).take k) = .error .truncated) ∧
  (∀ (code : List Byte) (ip : Int), ip < 0 ∨ (code.length : Int) ≤ ip →
    decodeAt code ip = .error .truncated)

/-- A second `0x66`, a `0x66` after a REX byte, or a second REX byte raises UNSUPPORTED_PREFIX
(30_encoding.md R77; spec's choice D10). -/
def Obligations.PrefixOutOfOrderIsRefused : Prop :=
  ∀ (r q : Rex) (bs : List Byte),
    decode (0x66 :: 0x66 :: bs) = .error .unsupportedPrefix ∧
    decode ((4#4 ++ r) :: 0x66 :: bs) = .error .unsupportedPrefix ∧
    decode ((4#4 ++ r) :: (4#4 ++ q) :: bs) = .error .unsupportedPrefix ∧
    decode (0x66 :: (4#4 ++ r) :: 0x66 :: bs) = .error .unsupportedPrefix ∧
    decode (0x66 :: (4#4 ++ r) :: (4#4 ++ q) :: bs) = .error .unsupportedPrefix

/-- The prefix-allowance table of 30_encoding.md R95, spelled row by row in `Form.takes` (spec's choice
D11; REX.X: R81, D29): whatever decodes stands behind prefix bytes that its row takes; the bytes of an
instruction behind any other prefixes raise UNSUPPORTED_PREFIX, and behind prefixes that its row takes
they never do; with bytes enough after them for the widest immediate they decode to the same row under
those prefixes. -/
def Obligations.PrefixAllowanceTable : Prop :=
  (∀ (bs rest : List Byte) (i : Instr), decode bs = .ok (i, rest) →
    ∃ p : Prefixes, bs = p.encode ++ i.body ++ rest ∧ i.form.takes p) ∧
  (∀ (i : Instr) (p : Prefixes) (rest : List Byte), i.operandsOk = true →
    (decode (p.encode ++ i.body ++ rest) = .error .unsupportedPrefix ↔ ¬ i.form.takes p) ∧
    (i.form.takes p → 8 ≤ rest.length →
      ∃ j rest', decode (p.encode ++ i.body ++ rest) = .ok (j, rest') ∧
        j.form = i.form ∧ j.prefixes = p))

/-- Under any prefixes, `mod = 00`, `mod = 10` and `mod = 01` with `rm = 100` raise
UNSUPPORTED_MODRM after every opcode that takes a ModRM byte; so does a digit other than the form's,
and a `mod` that the opcode does not list (30_encoding.md R86, R88, R94; the SIB encoding of
`rm = 100` is general knowledge, D1, the listed modes D12 and D13). -/
def Obligations.UnlistedModRMIsRefused : Prop :=
  ∀ (p : Prefixes) (op : Byte) (mod : BitVec 2) (reg rm : BitVec 3) (rest : List Byte),
    op ∈ [0x88#8, 0x89#8, 0x8A#8, 0x8B#8, 0xC7#8, 0x31#8, 0x83#8, 0x81#8, 0x80#8] →
    (mod = 0 ∨ mod = 2 ∨ (mod = 1 ∧ rm = 4) ∨
      (op = 0xC7 ∧ reg ≠ 0) ∨ ((op = 0x83 ∨ op = 0x81) ∧ reg ≠ 5) ∨ (op = 0x80 ∧ reg ≠ 7) ∨
      (op ∈ [0x31#8, 0x83#8, 0x81#8] ∧ mod ≠ 3) ∨
      (op ∈ [0x88#8, 0x8A#8, 0x8B#8, 0x80#8] ∧ mod ≠ 1)) →
    decode (p.encode ++ op :: (mod ++ reg ++ rm) :: rest) = .error .unsupportedModRM

/-- Under any prefixes, a first opcode byte outside the opcode map raises UNSUPPORTED_OPCODE, and so
does a byte after `0F` other than `84` and the first mismatch after `F3`, whatever follows and where
nothing does (30_encoding.md R91 to R93; byte values: the spec's choice D1, D25). -/
def Obligations.UnlistedOpcodeIsRefused : Prop :=
  ∀ (p : Prefixes) (b : Byte) (rest : List Byte),
    (b ∉ [0x88#8, 0x89#8, 0x8A#8, 0x8B#8, 0xC7#8, 0x31#8, 0x83#8, 0x81#8, 0x80#8, 0x74#8, 0xE9#8,
        0x0F#8, 0xF3#8, 0xF4#8, 0xC3#8] →
      ¬ (0x50 ≤ b.toNat ∧ b.toNat ≤ 0x5F) → ¬ (0xB8 ≤ b.toNat ∧ b.toNat ≤ 0xBF) →
      b ≠ 0x66 → ¬ (0x40 ≤ b.toNat ∧ b.toNat ≤ 0x4F) →
      decode (p.encode ++ b :: rest) = .error .unsupportedOpcode) ∧
    (b ≠ 0x84 → decode (p.encode ++ 0x0F :: b :: rest) = .error .unsupportedOpcode) ∧
    (b ≠ 0x0F → decode (p.encode ++ 0xF3 :: b :: rest) = .error .unsupportedOpcode) ∧
    (b ≠ 0x1E → decode (p.encode ++ 0xF3 :: 0x0F :: b :: rest) = .error .unsupportedOpcode) ∧
    (b ≠ 0xFA → decode (p.encode ++ 0xF3 :: 0x0F :: 0x1E :: b :: rest) =
      .error .unsupportedOpcode)

/-- The width of a decoded instruction (30_encoding.md R84): REX.W gives 64, else `0x66` gives 16,
else 32; the byte forms have 8 and PUSH and POP 64, and there W and `0x66` are refused. -/
def Obligations.WidthFollowsPrecedence : Prop :=
  ∀ (bs rest : List Byte) (i : Instr), decode bs = .ok (i, rest) →
    (i.form ∈ [.movRmR, .movRImm, .movRmImm, .xorRmR, .subRmImm8, .subRmImm32] →
      i.bits = some (if i.prefixes.w then 64 else if i.prefixes.osz then 16 else 32)) ∧
    (i.form ∈ [.movR8M8, .movM8R8, .cmpM8Imm8] →
      i.bits = some 8 ∧ i.prefixes.w = false ∧ i.prefixes.osz = false) ∧
    (i.form ∈ [.pushR64, .popR64] →
      i.bits = some 64 ∧ i.prefixes.w = false ∧ i.prefixes.osz = false)

/-- The 8-bit register of a byte load and of a byte store: without REX, numbers 0 to 3 name byte 0 and
4 to 7 byte 1 of slots 0 to 3; with any REX byte, byte 0 of the slot numbered REX.R and the field
(10_state.md R38, R39, 30_encoding.md R79; that 4 to 7 are ah, ch, dh, bh is general knowledge,
G3). -/
def Obligations.ByteRegisterMappingDependsOnRex : Prop :=
  ∀ (n : BitVec 3) (r b : Bool) (d8 : Byte) (rest : List Byte),
    (∃ reg m, decode (0x8A :: (1#2 ++ n ++ 5#3) :: d8 :: rest) =
        .ok (.movR8M8 ⟨false, none⟩ reg m, rest) ∧
      decode (0x88 :: (1#2 ++ n ++ 5#3) :: d8 :: rest) =
        .ok (.movM8R8 ⟨false, none⟩ m reg, rest) ∧
      (n.toNat < 4 → reg.id.slot.toNat = n.toNat ∧ reg.id.offset = 0) ∧
      (4 ≤ n.toNat → reg.id.slot.toNat = n.toNat - 4 ∧ reg.id.offset = 1)) ∧
    (∃ p reg m, decode ((4#4 ++ (0#1 ++ BitVec.ofBool r ++ 0#1 ++ BitVec.ofBool b)) :: 0x8A ::
        (1#2 ++ n ++ 5#3) :: d8 :: rest) = .ok (.movR8M8 p reg m, rest) ∧
      decode ((4#4 ++ (0#1 ++ BitVec.ofBool r ++ 0#1 ++ BitVec.ofBool b)) :: 0x88 ::
        (1#2 ++ n ++ 5#3) :: d8 :: rest) = .ok (.movM8R8 p m reg, rest) ∧
      reg.id.slot.toNat = (if r then 8 else 0) + n.toNat ∧ reg.id.offset = 0)

/-- A REX byte with all bits zero changes nothing but the length, for every form that has no 8-bit
register operand (30_encoding.md R79, R95; spec's choice D11): the instruction stays well-formed, and its run gives the
same register file, latch, memory, status and reference text, with `ip` one further if it
completes. -/
def Obligations.ZeroRexHasNoEffect : Prop :=
  ∀ (i : Instr) (s t : State), WellFormed i = true → i.prefixes.rex = none →
    i.form.allowance.rex = true → i.form ≠ .movR8M8 → i.form ≠ .movM8R8 →
    s.run = .running → s.params.renderer = .reference → exec i s = .next t →
    WellFormed (i.withPrefixes ⟨i.prefixes.osz, some 0⟩) = true ∧
    ∃ t', exec (i.withPrefixes ⟨i.prefixes.osz, some 0⟩) s = .next t' ∧
      t'.gpr = t.gpr ∧ t'.spare = t.spare ∧ t'.eq = t.eq ∧ t'.mem = t.mem ∧ t'.run = t.run ∧ t'.trace = t.trace ∧
      t'.ip = if t.run = .running then t.ip + 1 else t.ip

/-! ### Registers and memory -/

/-- Reading through an identifier gives the bits of its view, `GPR[s][8o+w-1 : 8o]` (10_state.md
R35): the whole slot at 64, bits 31:0 at 32, 15:0 at 16, 7:0 for a low byte, 15:8 for a high one. -/
def Obligations.RegisterReadGivesView : Prop :=
  (∀ (w : Nat) (r : RegId w) (s : State) (k : Nat), k < w →
    (s.readReg r).getLsbD k = (s.readGpr r.slot).getLsbD (8 * r.offset + k)) ∧
  (∀ (n : RegNum) (s : State),
    s.readReg (Width.w64.reg n) = s.readGpr n ∧
    s.readReg (Width.w32.reg n) = (s.readGpr n).extractLsb 31 0 ∧
    s.readReg (Width.w16.reg n) = (s.readGpr n).extractLsb 15 0 ∧
    s.readReg (Reg8.low n).id = (s.readGpr n).extractLsb 7 0) ∧
  (∀ (n : BitVec 2) (s : State),
    s.readReg (Reg8.high n).id = (s.readGpr (n.setWidth 4)).extractLsb 15 8)

/-- Writing through an identifier replaces the bytes of its view; every other byte of the slot is as
before, but a 32-bit write clears bits 63:32 when `ZEXT32` is true; no other slot and nothing else of
the state changes (10_state.md R36, R37, for both values of the parameter; the widths and offsets of
identifiers: R33, R34). -/
def Obligations.RegisterWriteReplacesView : Prop :=
  ∀ (w : Nat) (r : RegId w) (v : BitVec w) (s : State),
    (w = 8 ∧ r.offset ≤ 1) ∨ ((w = 16 ∨ w = 32 ∨ w = 64) ∧ r.offset = 0) →
    ViewWritten r v s (s.writeReg r v) ∧
    SameGprExcept [r.slot] s (s.writeReg r v) ∧
    { s.writeReg r v with gpr := s.gpr } = s

/-- The effective address is the 64-bit base plus the sign-extended displacement byte, modulo 2^64
(20_memory.md R59). -/
def Obligations.EffectiveAddressIsBasePlusDisp : Prop :=
  ∀ (s : State) (m : MemRef),
    ((s.ea m).toNat : Int) = (((s.readGpr m.base).toNat : Int) + m.d8.toInt) % 2 ^ 64

/-- `MemRead` of 1, 4 or 8 bytes: in range iff `ea + n <= STACK_SIZE`; in range it gives the
little-endian value of the bytes, out of range STACK_OUT_OF_RANGE (20_memory.md R60, R61; spec's
choice D5 and D2). -/
def Obligations.MemReadIsLittleEndian : Prop :=
  ∀ (s : State) (ea : Word) (w : Nat), w = 8 ∨ w = 32 ∨ w = 64 →
    (ea.toNat + w / 8 ≤ s.params.stackSize →
      ∃ v : BitVec w, s.memRead ea w = .ok v ∧ StoredAt ea.toNat v s) ∧
    (s.params.stackSize < ea.toNat + w / 8 → s.memRead ea w = .error .stackOutOfRange)

/-- `MemWrite` of 1, 4 or 8 bytes: in range the value's bytes stand at `ea` up, little-endian, every
other byte is as before and nothing but memory changes; out of range it raises STACK_OUT_OF_RANGE
(20_memory.md R60, R62; spec's choice D5 and D2). That memory is canonical before, and stays so, is the
model's own list form (log 4). -/
def Obligations.MemWriteIsLittleEndian : Prop :=
  ∀ (s : State) (ea : Word) (w : Nat) (v : BitVec w), w = 8 ∨ w = 32 ∨ w = 64 →
    s.mem.wf = true →
    (ea.toNat + w / 8 ≤ s.params.stackSize →
      ∃ t, s.memWrite ea v = .ok t ∧ StoredAt ea.toNat v t ∧
        SameMemoryOutside ea.toNat (w / 8) s t ∧ { t with mem := s.mem } = s ∧ t.mem.wf = true) ∧
    (s.params.stackSize < ea.toNat + w / 8 → s.memWrite ea v = .error .stackOutOfRange)

/-- A read of a byte after a wider write gives the written byte, and a read of the same width gives
the written value (20_memory.md R64, R70; byte order: spec's choice D2). -/
def Obligations.ReadAfterWriteGivesTheBytes : Prop :=
  ∀ (s t : State) (ea : Word) (w : Nat) (v : BitVec w), w = 8 ∨ w = 32 ∨ w = 64 →
    s.mem.wf = true → s.memWrite ea v = .ok t →
    t.memRead ea w = .ok v ∧
    ∀ (k : Nat) (a : Word), k < w / 8 → a.toNat = ea.toNat + k →
      t.memRead a 8 = .ok (v.extractLsb' (8 * k) 8)

/-! ### Results and frames of the instructions -/

/-- MOV r/m, r completes from every state and copies the source view to the destination view; every
other register, the latch and memory are as before (40_data_movement.md R106, encoding choice
D13). -/
def Obligations.MovRegisterCopiesView : Prop :=
  ∀ (pre : Prefixes) (w : Width) (rm reg : RegNum) (s : State),
    ∃ t, exec (.movRmR pre w rm reg) s = .next t ∧
      ViewWritten (w.reg rm) (s.readReg (w.reg reg)) s t ∧ SameGprExcept [rm] s t ∧
      t.eq = s.eq ∧ SameMemory s t ∧
      CompletedAt (.movRmR pre w rm reg) s t (s.ip + pre.count + 2)

/-- Both immediate moves complete from every state: the short form writes its `w`-bit immediate, the
ModRM form its immediate taken as a signed number at `w` bits; every other register, the latch and
memory are as before (40_data_movement.md R107, R108, 30_encoding.md R89; size of iq: D27). -/
def Obligations.MovImmediateWritesValue : Prop :=
  (∀ (pre : Prefixes) (w : Width) (r : RegNum) (imm : BitVec 64) (s : State),
    ∃ t, exec (.movRImm pre w r imm) s = .next t ∧
      ViewWritten (w.reg r) (BitVec.ofNat w.bits imm.toNat) s t ∧ SameGprExcept [r] s t ∧
      t.eq = s.eq ∧ SameMemory s t ∧
      CompletedAt (.movRImm pre w r imm) s t (s.ip + pre.count + 1 + w.bytes)) ∧
  (∀ (pre : Prefixes) (w : Width) (rm : RegNum) (imm : BitVec 32) (s : State),
    ∃ t, exec (.movRmImm pre w rm imm) s = .next t ∧
      ViewWritten (w.reg rm) (BitVec.ofInt w.bits imm.toInt) s t ∧ SameGprExcept [rm] s t ∧
      t.eq = s.eq ∧ SameMemory s t ∧
      CompletedAt (.movRmImm pre w rm imm) s t
        (s.ip + pre.count + 2 + (if w = .w16 then 2 else 4 : Int)))

/-- XOR completes from every state: the destination view becomes the exclusive or, the latch becomes
Unset (spec's choice D9), every other register and memory are as before; `xor r, r` leaves 0 in the
view (41_arith_logic.md R117). -/
def Obligations.XorWritesExclusiveOr : Prop :=
  ∀ (pre : Prefixes) (w : Width) (rm reg : RegNum) (s : State),
    ∃ t, exec (.xorRmR pre w rm reg) s = .next t ∧
      ViewWritten (w.reg rm) (s.readReg (w.reg rm) ^^^ s.readReg (w.reg reg)) s t ∧
      (rm = reg → t.readReg (w.reg rm) = 0) ∧
      SameGprExcept [rm] s t ∧ t.eq = .unset ∧ SameMemory s t ∧
      CompletedAt (.xorRmR pre w rm reg) s t (s.ip + pre.count + 2)

/-- Both SUB forms complete from every state: the destination view becomes the difference with the
signed immediate, modulo 2^w, the latch becomes Unset (spec's choice D9), every other register and
memory are as before (41_arith_logic.md R116, R118, R119). -/
def Obligations.SubWritesDifference : Prop :=
  (∀ (pre : Prefixes) (w : Width) (rm : RegNum) (imm : BitVec 8) (s : State),
    ∃ t, exec (.subRmImm8 pre w rm imm) s = .next t ∧
      ViewWritten (w.reg rm)
        (BitVec.ofInt w.bits (((s.readReg (w.reg rm)).toNat : Int) - imm.toInt)) s t ∧
      SameGprExcept [rm] s t ∧ t.eq = .unset ∧ SameMemory s t ∧
      CompletedAt (.subRmImm8 pre w rm imm) s t (s.ip + pre.count + 3)) ∧
  (∀ (pre : Prefixes) (w : Width) (rm : RegNum) (imm : BitVec 32) (s : State),
    ∃ t, exec (.subRmImm32 pre w rm imm) s = .next t ∧
      ViewWritten (w.reg rm)
        (BitVec.ofInt w.bits (((s.readReg (w.reg rm)).toNat : Int) - imm.toInt)) s t ∧
      SameGprExcept [rm] s t ∧ t.eq = .unset ∧ SameMemory s t ∧
      CompletedAt (.subRmImm32 pre w rm imm) s t (s.ip + pre.count + 6))

/-- Both loads complete when the access is in range (spec's choice D5): the destination view becomes
the byte, or the four bytes little-endian (D2); every other register, the latch and memory are as
before (40_data_movement.md R109, R111, width choice D12). -/
def Obligations.LoadWritesMemoryValue : Prop :=
  (∀ (pre : Prefixes) (reg : Reg8) (mem : MemRef) (s : State),
    (s.ea mem).toNat + 1 ≤ s.params.stackSize →
    ∃ t, exec (.movR8M8 pre reg mem) s = .next t ∧
      ViewWritten reg.id (s.mem.readByte (s.ea mem).toNat) s t ∧
      SameGprExcept [reg.id.slot] s t ∧ t.eq = s.eq ∧ SameMemory s t ∧
      CompletedAt (.movR8M8 pre reg mem) s t (s.ip + pre.count + 3)) ∧
  (∀ (pre : Prefixes) (reg : RegNum) (mem : MemRef) (s : State),
    (s.ea mem).toNat + 4 ≤ s.params.stackSize →
    ∃ t v, exec (.movR32M32 pre reg mem) s = .next t ∧
      StoredAt (s.ea mem).toNat v s ∧ ViewWritten (reg32 reg) v s t ∧
      SameGprExcept [reg] s t ∧ t.eq = s.eq ∧ SameMemory s t ∧
      CompletedAt (.movR32M32 pre reg mem) s t (s.ip + pre.count + 3))

/-- The three stores complete when the access is in range (spec's choice D5) and memory is canonical:
the stored value stands little-endian (D2) at the effective address, every other byte, every register
and the latch are as before (40_data_movement.md R110, R112, R113, width choice D12). -/
def Obligations.StoreWritesMemoryBytes : Prop :=
  (∀ (pre : Prefixes) (mem : MemRef) (reg : Reg8) (s : State), s.mem.wf = true →
    (s.ea mem).toNat + 1 ≤ s.params.stackSize →
    ∃ t, exec (.movM8R8 pre mem reg) s = .next t ∧
      StoredAt (s.ea mem).toNat (s.readReg reg.id) t ∧
      SameMemoryOutside (s.ea mem).toNat 1 s t ∧ SameGprExcept [] s t ∧ t.eq = s.eq ∧
      CompletedAt (.movM8R8 pre mem reg) s t (s.ip + pre.count + 3)) ∧
  (∀ (pre : Prefixes) (mem : MemRef) (reg : RegNum) (s : State), s.mem.wf = true →
    (s.ea mem).toNat + 4 ≤ s.params.stackSize →
    ∃ t, exec (.movM32R32 pre mem reg) s = .next t ∧
      StoredAt (s.ea mem).toNat (s.readReg (reg32 reg)) t ∧
      SameMemoryOutside (s.ea mem).toNat 4 s t ∧ SameGprExcept [] s t ∧ t.eq = s.eq ∧
      CompletedAt (.movM32R32 pre mem reg) s t (s.ip + pre.count + 3)) ∧
  (∀ (pre : Prefixes) (mem : MemRef) (imm : BitVec 32) (s : State), s.mem.wf = true →
    (s.ea mem).toNat + 4 ≤ s.params.stackSize →
    ∃ t, exec (.movM32Imm32 pre mem imm) s = .next t ∧
      StoredAt (s.ea mem).toNat imm t ∧
      SameMemoryOutside (s.ea mem).toNat 4 s t ∧ SameGprExcept [] s t ∧ t.eq = s.eq ∧
      CompletedAt (.movM32Imm32 pre mem imm) s t (s.ip + pre.count + 7))

/-- CMP completes when its byte is in range (spec's choice D5): the latch becomes Set, true iff the
byte equals the immediate (D9); every register and memory are as before (41_arith_logic.md R120). -/
def Obligations.CompareSetsEqualityLatch : Prop :=
  ∀ (pre : Prefixes) (mem : MemRef) (imm : BitVec 8) (s : State),
    (s.ea mem).toNat + 1 ≤ s.params.stackSize →
    ∃ t, exec (.cmpM8Imm8 pre mem imm) s = .next t ∧
      t.eq = .set (decide (s.mem.readByte (s.ea mem).toNat = imm)) ∧
      SameGprExcept [] s t ∧ SameMemory s t ∧
      CompletedAt (.cmpM8Imm8 pre mem imm) s t (s.ip + pre.count + 4)

/-- PUSH completes when the eight bytes below rsp are in range (spec's choice D5): they hold the old
value of the register, for rsp too (D23), rsp is 8 less modulo 2^64, every other register and byte
and the latch are as before (40_data_movement.md R114). -/
def Obligations.PushStoresRegister : Prop :=
  ∀ (pre : Prefixes) (r : RegNum) (s : State), s.mem.wf = true →
    (s.readGpr 4 - 8).toNat + 8 ≤ s.params.stackSize →
    ∃ t, exec (.pushR64 pre r) s = .next t ∧
      t.readGpr 4 = s.readGpr 4 - 8 ∧
      StoredAt (s.readGpr 4 - 8).toNat (s.readGpr r) t ∧
      SameMemoryOutside (s.readGpr 4 - 8).toNat 8 s t ∧ SameGprExcept [4] s t ∧ t.eq = s.eq ∧
      CompletedAt (.pushR64 pre r) s t (s.ip + pre.count + 1)

/-- POP completes when the eight bytes at rsp are in range (spec's choice D5): the register holds
their little-endian value, for rsp too (D23), any other destination leaves rsp 8 more; every other
register, memory and the latch are as before (40_data_movement.md R115). -/
def Obligations.PopLoadsRegister : Prop :=
  ∀ (pre : Prefixes) (r : RegNum) (s : State),
    (s.readGpr 4).toNat + 8 ≤ s.params.stackSize →
    ∃ t, exec (.popR64 pre r) s = .next t ∧
      StoredAt (s.readGpr 4).toNat (t.readGpr r) s ∧
      (r ≠ 4 → t.readGpr 4 = s.readGpr 4 + 8) ∧
      SameGprExcept [4, r] s t ∧ t.eq = s.eq ∧ SameMemory s t ∧
      CompletedAt (.popR64 pre r) s t (s.ip + pre.count + 1)

/-- A push of any register followed by a pop of the same one leaves every register as it was and the
register's bytes below rsp (the scenario of 95_test_vectors.md L1-7, for every state, register and
prefixes; 40_data_movement.md R114, R115, corners D23). -/
def Obligations.PushThenPopRestoresRegisters : Prop :=
  ∀ (pre pre' : Prefixes) (r : RegNum) (s : State), s.mem.wf = true →
    (s.readGpr 4 - 8).toNat + 8 ≤ s.params.stackSize →
    ∃ t u, exec (.pushR64 pre r) s = .next t ∧ exec (.popR64 pre' r) t = .next u ∧
      SameGprExcept [] s u ∧ StoredAt (s.readGpr 4 - 8).toNat (s.readGpr r) u

/-- Every instruction that accesses memory takes STACK_OUT_OF_RANGE, and changes nothing else, when
its access is not in range; no other instruction accesses memory: with any other memory it has the same
outcome, with that memory in it (20_memory.md R60, R65, 60_exceptions.md R135; spec's choice D5). -/
def Obligations.OutOfRangeAccessFaults : Prop :=
  (∀ (i : Instr) (s : State) (base n : Nat), i.accesses s = some (base, n) →
    s.params.stackSize < base + n → exec i s = .next (s.afterFault .stackOutOfRange)) ∧
  (∀ (i : Instr) (s : State) (m : Memory), i.accesses s = none →
    exec i { s with mem := m } = mapNext (fun t => { t with mem := m }) (exec i s))

/-- Both JE forms: on an unset latch EQ_UNSET (spec's choice D9); on Set(false) the next instruction,
whatever the target; on Set(true) the target `ip + L + d`, when it lies in `[0, len]`, and
BRANCH_OUT_OF_RANGE when it does not (D3, D15); registers, latch and memory are as before
(42_control.md R121 to R123). -/
def Obligations.JumpIfEqualReadsLatch : Prop :=
  ∀ (i : Instr) (len d : Int) (s : State),
    ((∃ cb, i = .jeRel8 cb ∧ len = 2 ∧ d = cb.toInt) ∨
      (∃ cd, i = .jeRel32 cd ∧ len = 6 ∧ d = cd.toInt)) →
    (s.eq = .unset → exec i s = .next (s.afterFault .eqUnset)) ∧
    (s.eq = .set false → ∃ t, exec i s = .next t ∧ SameData s t ∧ CompletedAt i s t (s.ip + len)) ∧
    (s.eq = .set true → 0 ≤ s.ip + len + d → s.ip + len + d ≤ s.code.length →
      ∃ t, exec i s = .next t ∧ SameData s t ∧ CompletedAt i s t (s.ip + len + d)) ∧
    (s.eq = .set true → s.ip + len + d < 0 ∨ s.code.length < s.ip + len + d →
      exec i s = .next (s.afterFault .branchOutOfRange))

/-- JMP rel32 goes to `ip + 5 + d` when that lies in `[0, len]`, and takes BRANCH_OUT_OF_RANGE when
it does not (spec's choice D3, D15); registers, latch and memory are as before (42_control.md R121,
R124). -/
def Obligations.JumpGoesToTarget : Prop :=
  ∀ (cd : BitVec 32) (s : State),
    (0 ≤ s.ip + 5 + cd.toInt → s.ip + 5 + cd.toInt ≤ s.code.length →
      ∃ t, exec (.jmpRel32 cd) s = .next t ∧ SameData s t ∧
        CompletedAt (.jmpRel32 cd) s t (s.ip + 5 + cd.toInt)) ∧
    (s.ip + 5 + cd.toInt < 0 ∨ s.code.length < s.ip + 5 + cd.toInt →
      exec (.jmpRel32 cd) s = .next (s.afterFault .branchOutOfRange))

/-- ENDBR64 completes from every state and changes nothing but `ip`, which moves 4 on, and the trace
(42_control.md R125; its bytes: D1). -/
def Obligations.EndbrOnlyAdvances : Prop :=
  ∀ s : State, ∃ t, exec .endbr64 s = .next t ∧ SameData s t ∧ CompletedAt .endbr64 s t (s.ip + 4)

/-- HLT ends the run as Halted and RET as Returned, from every state; `ip`, registers, latch and
memory are as before, the latches are clear and the trace has one more line (42_control.md R126,
R127; spec's choice D17). -/
def Obligations.TerminatorsEndTheRun : Prop :=
  ∀ s : State,
    (∃ t, exec .hlt s = .next t ∧ t.run = .halted ∧ SameData s t ∧
      CompletedAt .hlt s { t with run := s.run } s.ip) ∧
    (∃ t, exec .ret s = .next t ∧ t.run = .returned ∧ SameData s t ∧
      CompletedAt .ret s { t with run := s.run } s.ip)

/-! ### The whole machine -/

/-- A launch within CODE_MAX, with the slots that the spec names (log 16), starts a run with the reset
values of 10_state.md R53 (spec's choice D4, D6, D7, D9, D15): rsp and rbp at STACK_TOP, the other
slots from `gpr_init`, memory from `stack_init`, `ip` 0, the latches clear, the run status Running, the
trace empty. The bytes of the register file beyond 16 slots of 8 start as the launch gives them (the
model's choice, log 16). -/
def Obligations.LaunchGivesResetValues : Prop :=
  ∀ l : Launch, 16 ≤ l.params.numSlots → 8 ≤ l.params.slotBytes →
    l.code.length ≤ l.params.codeMax →
    ∃ s, launch l = .next s ∧
      s.readGpr 4 = BitVec.ofNat 64 l.params.stackSize ∧
      s.readGpr 5 = BitVec.ofNat 64 l.params.stackSize ∧
      (∀ n : Fin 16, n ≠ 4 → n ≠ 5 → s.gpr[n] = l.gprInit[n]) ∧
      s.spare.length + 128 = l.params.numSlots * l.params.slotBytes ∧
      (∀ k < s.spare.length, s.spare.getD k 0 = l.spareInit.getD k 0) ∧
      s.ip = 0 ∧ s.rex = none ∧ s.osz = false ∧ s.eq = .unset ∧ s.run = .running ∧
      s.mem = l.stackInit ∧ s.trace = [] ∧
      s.code = l.code ∧ s.sinkAttached = l.sinkAttached ∧ s.params = l.params

/-- The reset state is the launch with the model's reference inputs: rsp = rbp = 0x100000 (the spec's
choice D4; the size of the buffer, log 5), the other registers 0 (log 3), memory reads 0 everywhere
(log 4), no code (log 13), sink attached (log 6), and the default of every parameter: 16 slots of 8
bytes and so no byte without a name (log 16), STACK_SIZE and CODE_MAX (log 5), ZEXT32 false (the spec's
choice D8; log 2), the reference rendering (the spec's choice D21; log 7). Each is the model's choice
where its log entry says so. -/
def Obligations.ResetIsReferenceLaunch : Prop :=
  launch Launch.reference = .next State.reset ∧
  State.reset.readGpr 4 = 0x100000 ∧ State.reset.readGpr 5 = 0x100000 ∧
  (∀ n : RegNum, n ≠ 4 → n ≠ 5 → State.reset.readGpr n = 0) ∧ State.reset.spare = [] ∧
  (∀ a : Nat, State.reset.mem.readByte a = 0) ∧
  State.reset.code = [] ∧ State.reset.sinkAttached = true ∧
  State.reset.params = ⟨16, 8, 1048576, 4096, false, .reference⟩

/-- A launch is refused exactly when the code is longer than CODE_MAX; a run of no code faults at
once with TRUNCATED at 0 (70_reset_and_hazards.md R147; spec's choice D16). Both hold for a register
file with the slots and bytes that the spec names; a smaller one, for which the spec has no rule, is
always refused (the model's choice, log 16). -/
def Obligations.LaunchRefusesOnlyLongCode : Prop :=
  (∀ l : Launch, 16 ≤ l.params.numSlots → 8 ≤ l.params.slotBytes →
    ((∃ r, launch l = .refused r) ↔ l.params.codeMax < l.code.length)) ∧
  (∀ l : Launch, 16 ≤ l.params.numSlots → 8 ≤ l.params.slotBytes → l.code = [] →
    ∃ s, launch l = .next s ∧ step s = .next (s.afterFault .truncated) ∧
      (s.afterFault .truncated).run = .faulted .truncated 0) ∧
  (∀ l : Launch, l.params.numSlots < 16 ∨ l.params.slotBytes < 8 →
    launch l = .refused (.registerFileTooSmall l.params.numSlots l.params.slotBytes))

/-- A step of a running state runs the instruction whose bytes stand at `ip`, with the prefix latches
holding its prefixes (log 11), or takes the fault that decoding raises; a terminal state has no
next state (70_reset_and_hazards.md R149). -/
def Obligations.StepRunsDecodedInstruction : Prop :=
  ∀ s : State,
    (s.run = .running → ∀ i rest, decodeAt s.code s.ip = .ok (i, rest) →
      step s = exec i { s with rex := i.prefixes.rex, osz := i.prefixes.osz }) ∧
    (s.run = .running → ∀ c, decodeAt s.code s.ip = .error c → step s = .next (s.afterFault c)) ∧
    (s.run ≠ .running → ∀ t, step s ≠ .next t)

/-- The step is Decode followed by the rule of the row; its outcome is a next state that is running with
`ip` advanced (past the instruction, or to a branch target within `[0, len]`), Halted, Returned, or
Faulted at the instruction's offset; there is no refusal, and in a terminal state no step
(70_reset_and_hazards.md R149). -/
def Obligations.StepOutcomeIsOneOfTheFour : Prop :=
  ∀ s : State,
    (∀ r, step s ≠ .refused r) ∧
    (s.run ≠ .running → ∀ t, step s ≠ .next t) ∧
    (s.run = .running → ∃ t, step s = .next t ∧
      ((∃ c, decodeAt s.code s.ip = .error c ∧ t = s.afterFault c) ∨
        (∃ i rest, decodeAt s.code s.ip = .ok (i, rest) ∧
          exec i { s with rex := i.prefixes.rex, osz := i.prefixes.osz } = .next t ∧
          (t.run = .running → t.ip = s.ip + i.length ∨
            (i.form ∈ [.jeRel8, .jeRel32, .jmpRel32] ∧ 0 ≤ t.ip ∧ t.ip ≤ s.code.length)))) ∧
      (t.run = .running ∨ t.run = .halted ∨ t.run = .returned ∨ ∃ c, t.run = .faulted c s.ip))

/-- Every step keeps the invariants of 10_state.md R54: the latches are clear, and a running state's
`ip` lies in `[0, len]`. R54 marks that the step preserves them as the spec's own inference. -/
def Obligations.StepKeepsBoundaryInvariant : Prop :=
  ∀ s t : State, Inv s → step s = .next t → Inv t

/-- Every step keeps the stack memory in canonical form and within the buffer (20_memory.md R58, R60;
log 4). -/
def Obligations.StepKeepsMemoryInvariant : Prop :=
  ∀ s t : State, MemInv s → step s = .next t → MemInv t

/-- Both invariants hold at reset, and in the first state of every launch whose `stack_init` is
canonical and within the buffer: the latches clear and `ip` 0 (10_state.md R53, R54; spec's choice
D15), memory from `stack_init` (R53; spec's choice D7). That memory is in canonical form is the model's
own list form (log 4), and what it reads as at reset the model's choice (log 4). -/
def Obligations.LaunchMeetsInvariants : Prop :=
  (Inv State.reset ∧ MemInv State.reset) ∧
  ∀ (l : Launch) (s : State), launch l = .next s → l.stackInit.wf = true →
    (∀ c ∈ l.stackInit, c.1 < l.params.stackSize) → Inv s ∧ MemInv s

/-- When a step faults, the only state change is the run status, which records the code and the `ip`
of the instruction; the prefix latches are cleared (60_exceptions.md R135). -/
def Obligations.FaultChangesOnlyRunStatus : Prop :=
  ∀ (s t : State) (c : FaultCode) (a : Int), s.run = .running → step s = .next t →
    t.run = .faulted c a →
    t = { s with run := .faulted c s.ip, rex := none, osz := false }

/-- Which instruction raises which fault, and why (60_exceptions.md R131; spec's choice D5, D9, D15): an
instruction that runs raises STACK_OUT_OF_RANGE only where it accesses memory out of range,
BRANCH_OUT_OF_RANGE only as JMP or a JE taken whose target `ip + L + d` lies outside `[0, len]`,
EQ_UNSET only as JE on an unset latch, and none of the decode faults. -/
def Obligations.ExecuteFaultsHaveTheirCauses : Prop :=
  ∀ (i : Instr) (s t : State) (c : FaultCode) (a : Int), s.run = .running →
    exec i s = .next t → t.run = .faulted c a → a = s.ip ∧
    match c with
    | .stackOutOfRange => ∃ base n, i.accesses s = some (base, n) ∧ s.params.stackSize < base + n
    | .branchOutOfRange => ∃ d, i.displacement = some d ∧
      (i.form = .jmpRel32 ∨ ((i.form = .jeRel8 ∨ i.form = .jeRel32) ∧ s.eq = .set true)) ∧
      (s.ip + i.length + d < 0 ∨ s.code.length < s.ip + i.length + d)
    | .eqUnset => (i.form = .jeRel8 ∨ i.form = .jeRel32) ∧ s.eq = .unset
    | .unsupportedOpcode | .unsupportedPrefix | .unsupportedModRM | .truncated => False

/-- Only HLT gives Halted and only RET gives Returned (42_control.md R126, R127, 60_exceptions.md
R145; spec's choice D17, D20). -/
def Obligations.OnlyTerminatorsEndNormally : Prop :=
  ∀ s t : State, s.run = .running → step s = .next t →
    (t.run = .halted ↔ ∃ rest, decodeAt s.code s.ip = .ok (.hlt, rest)) ∧
    (t.run = .returned ↔ ∃ rest, decodeAt s.code s.ip = .ok (.ret, rest))

/-- Who writes the equality latch (10_state.md R48; spec's choice D9): XOR and SUB leave it Unset, a
CMP that completes leaves it Set, every other instruction leaves it as it was. -/
def Obligations.EqualityLatchWriters : Prop :=
  ∀ (i : Instr) (s t : State), s.run = .running → exec i s = .next t →
    (i.form ∈ [.xorRmR, .subRmImm8, .subRmImm32] → t.eq = .unset) ∧
    (i.form = .cmpM8Imm8 → t.run = .running → ∃ b, t.eq = .set b) ∧
    (i.form ∉ [.xorRmR, .subRmImm8, .subRmImm32, .cmpM8Imm8] → t.eq = s.eq)

/-- A non-branching instruction of length `L` sets `ip` to `ip + L` when it completes, with no wrap;
running past `len` is caught by the next fetch, as TRUNCATED (10_state.md R41). -/
def Obligations.NonBranchingAdvancesByLength : Prop :=
  (∀ (i : Instr) (s t : State),
    i.form ∉ [.jeRel8, .jeRel32, .jmpRel32, .hlt, .ret] → s.run = .running →
    exec i s = .next t → t.run = .running → t.ip = s.ip + (encode i).length) ∧
  (∀ s : State, s.run = .running → s.code.length ≤ s.ip →
    step s = .next (s.afterFault .truncated))

/-- The frame of the registers: an instruction changes no slot but its destination's, and rsp for PUSH
and POP, and no byte of the register file that no identifier names (log 16) (10_state.md R36,
40_data_movement.md R105 to R115, 41_arith_logic.md R117 to R120, 42_control.md R122 to R127). -/
def Obligations.OnlyDestinationRegistersChange : Prop :=
  ∀ (i : Instr) (s t : State), exec i s = .next t → SameGprExcept (Instr.writes i) s t

/-- An instruction changes no byte of memory but the bytes it stores to, at the address it computes
from the state before it, and these lie within the buffer (20_memory.md R60, R62, R65; spec's choice
D5, D12). -/
def Obligations.OnlyStoredBytesChange : Prop :=
  ∀ (i : Instr) (s t : State), s.mem.wf = true → exec i s = .next t →
    ∀ a : Nat, t.mem.readByte a ≠ s.mem.readByte a →
      ∃ base n, i.stores s = some (base, n) ∧ base ≤ a ∧ a < base + n ∧
        base + n ≤ s.params.stackSize

/-- No instruction writes the code space, and none reads it as data: with other code bytes of the same
number, the instruction has the same outcome (20_memory.md R57). -/
def Obligations.InstructionsDoNotTouchCode : Prop :=
  ∀ (i : Instr) (s : State) (code' : List Byte), code'.length = s.code.length →
    (∀ t, exec i s = .next t → t.code = s.code) ∧
    exec i { s with code := code' } = mapNext (fun t => { t with code := code' }) (exec i s)

/-- The trace port (00_scope.md R16): with the sink attached a completing instruction appends exactly
one line, its rendering, and a faulting one nothing; without it nothing is recorded; and neither
the sink nor the lines recorded so far change any other result. -/
def Obligations.TraceIsOutputOnly : Prop :=
  (∀ s t : State, s.run = .running → step s = .next t → (∀ c a, t.run ≠ .faulted c a) →
    ∃ i rest, decodeAt s.code s.ip = .ok (i, rest) ∧
      t.trace = if s.sinkAttached then s.trace ++ [s.params.line i] else s.trace) ∧
  (∀ (s t : State) (c : FaultCode) (a : Int), s.run = .running → step s = .next t →
    t.run = .faulted c a → t.trace = s.trace) ∧
  (∀ (s : State) (b : Bool) (lines : List String),
    mapNext (fun t => { t with sinkAttached := b, trace := lines })
        (step { s with sinkAttached := b, trace := lines }) =
      mapNext (fun t => { t with sinkAttached := b, trace := lines }) (step s))

/-- The prefix latches are clear after every step, and what they hold before an instruction has no
effect on it (10_state.md R46). -/
def Obligations.PrefixLatchesCarryNothing : Prop :=
  (∀ s t : State, step s = .next t → t.rex = none ∧ t.osz = false) ∧
  (∀ (s : State) (r : Option Rex) (o : Bool), step { s with rex := r, osz := o } = step s) ∧
  (∀ (i : Instr) (s : State) (r : Option Rex) (o : Bool),
    exec i { s with rex := r, osz := o } = exec i s)

/-- `ZEXT32` acts only on 32-bit register writes: under its other value every other instruction has
the same outcome (10_state.md R37; its default is the spec's choice D8). -/
def Obligations.ZextActsOnlyOn32BitRegisterWrites : Prop :=
  ∀ (i : Instr) (s : State) (z : Bool), Instr.writesReg32 i = false →
    exec i { s with params := { s.params with zext32 := z } } =
      mapNext (fun t => { t with params := { t.params with zext32 := z } }) (exec i s)

/-- Every line, of the reference renderer and of any other, keeps to the properties that 00_scope.md R26
fixes of every rendering: register operands under their lower-case names, a memory operand as
`[base+disp]` or `[base-disp]`, the short-form immediate in hex with a leading `0x`. How far each
property reaches is the model's reading of R26 (log 7). -/
def Obligations.EveryLineKeepsToTheConventions : Prop :=
  ∀ (p : Params) (i : Instr), Instr.conventions i (p.line i) = true
end

