-- ==== Sys2Proof/Laws/Memory.lean ====
section
/-! SUPPORT. The laws of the stack memory: every store keeps the canonical form, a read after a store
of the same address gives the stored byte, a store leaves every other address as it was
(20_memory.md R61, R62, R64), and the byte order of multi-byte values (R63). -/

namespace Sys2Proof

/-! ### Byte order -/

@[simp] theorem leBytes_length (n v : Nat) : (leBytes n v).length = n := by
  induction n generalizing v with
  | zero => rfl
  | succ n ih => simp [leBytes, ih]

/-- The little-endian value of the bytes of a number is the number, modulo the bytes' range. -/
theorem leValue_leBytes (n v : Nat) : leValue (leBytes n v) = v % 256 ^ n := by
  induction n generalizing v with
  | zero => simp [leBytes, leValue, Nat.mod_one]
  | succ n ih =>
    simp only [leBytes, leValue, ih, BitVec.toNat_ofNat]
    rw [show 256 ^ (n + 1) = 256 * 256 ^ n from Nat.pow_succ', Nat.mod_mul]

/-- The bytes of the little-endian value of bytes are those bytes. -/
theorem leBytes_leValue (bs : List Byte) : leBytes bs.length (leValue bs) = bs := by
  induction bs with
  | nil => rfl
  | cons b bs ih =>
    have hb := b.isLt
    simp only [List.length_cons, leBytes, leValue]
    congr 1
    · apply BitVec.eq_of_toNat_eq
      simp only [BitVec.toNat_ofNat]
      omega
    · rw [show (b.toNat + 256 * leValue bs) / 256 = leValue bs by omega]
      exact ih

theorem leValue_lt (bs : List Byte) : leValue bs < 256 ^ bs.length := by
  induction bs with
  | nil => simp [leValue]
  | cons b bs ih =>
    have hb := b.isLt
    simp only [leValue, List.length_cons, Nat.pow_succ]
    omega

/-- Byte `k` of the little-endian bytes of a number. -/
theorem leBytes_getElem (n v k : Nat) (h : k < (leBytes n v).length) :
    (leBytes n v)[k] = BitVec.ofNat 8 (v / 256 ^ k) := by
  induction n generalizing v k with
  | zero => simp at h
  | succ n ih =>
    cases k with
    | zero => simp [leBytes]
    | succ k =>
      simp only [leBytes, List.getElem_cons_succ]
      rw [ih, Nat.div_div_eq_div_mul, ← Nat.pow_succ']

/-- Byte `k` of a little-endian value. -/
theorem leValue_byte (bs : List Byte) (k : Nat) (h : k < bs.length) :
    BitVec.ofNat 8 (leValue bs / 256 ^ k) = bs[k] := by
  have e := leBytes_getElem bs.length (leValue bs) k (by simpa using h)
  rw [← e]
  simp [leBytes_leValue]

end Sys2Proof

namespace Sys2Proof.Machine

variable {m : Memory} {a b : Nat} {v : Byte}

/-! ### The canonical form -/

@[simp] theorem Memory.wf_nil : Memory.wf [] = true := rfl

theorem Memory.wf_cons {c : Host.Cell} {rest : Memory} : Memory.wf (c :: rest) = true ↔
    c.2 ≠ Memory.unlisted ∧ (∀ d ∈ rest, c.1 < d.1) ∧ Memory.wf rest = true := by
  simp [Memory.wf, and_assoc]

/-- A store lists no address but its own and those listed before. -/
theorem Memory.mem_writeByte {c : Host.Cell} (h : c ∈ m.writeByte a v) : c = (a, v) ∨ c ∈ m := by
  induction m with
  | nil =>
    simp only [Memory.writeByte] at h
    split at h <;> simp_all
  | cons d rest ih =>
    simp only [Memory.writeByte] at h
    split at h <;> (try split at h) <;> (try split at h) <;> simp_all <;> tauto

/-- A store keeps the canonical form. -/
theorem Memory.wf_writeByte (h : m.wf = true) : (m.writeByte a v).wf = true := by
  induction m with
  | nil =>
    simp only [Memory.writeByte]
    split
    · rfl
    · simp [Memory.wf, *]
  | cons d rest ih =>
    obtain ⟨hd, hlt, hr⟩ := Memory.wf_cons.mp h
    simp only [Memory.writeByte]
    split
    · rename_i had
      split
      · exact h
      · refine Memory.wf_cons.mpr ⟨by assumption, ?_, h⟩
        rintro e he
        rcases List.mem_cons.mp he with rfl | he
        · exact had
        · exact Nat.lt_trans had (hlt e he)
    · split
      · rename_i hda
        split
        · exact hr
        · exact Memory.wf_cons.mpr ⟨by assumption, by simpa [← hda] using hlt, hr⟩
      · refine Memory.wf_cons.mpr ⟨hd, ?_, ih hr⟩
        intro e he
        rcases Memory.mem_writeByte he with rfl | he
        · simp only
          omega
        · exact hlt e he

/-- Storing a list of bytes keeps the canonical form. -/
theorem Memory.wf_writeBytes (bs : List Byte) (h : m.wf = true) :
    (m.writeBytes a bs).wf = true := by
  induction bs generalizing m a with
  | nil => exact h
  | cons b bs ih => exact ih (Memory.wf_writeByte h)

/-- Storing a list of bytes lists no address but those stored to and those listed before. -/
theorem Memory.mem_writeBytes {bs : List Byte} {c : Host.Cell} (h : c ∈ m.writeBytes a bs) :
    (a ≤ c.1 ∧ c.1 < a + bs.length) ∨ c ∈ m := by
  induction bs generalizing m a with
  | nil => exact .inr h
  | cons b bs ih =>
    rcases ih h with h | h
    · left
      simp only [List.length_cons]
      omega
    · rcases Memory.mem_writeByte h with rfl | h
      · left
        simp
      · exact .inr h

/-! ### Reads and writes -/

/-- An address below every listed one reads as an unlisted address. -/
theorem Memory.readByte_of_lt (h : ∀ d ∈ m, a < d.1) : m.readByte a = Memory.unlisted := by
  induction m with
  | nil => rfl
  | cons d rest ih =>
    have hd := h d (by simp)
    simp only [Memory.readByte]
    rw [if_neg (by omega)]
    exact ih fun e he => h e (by simp [he])

/-- A read after a store: the stored byte at its address, the byte as before elsewhere. -/
theorem Memory.readByte_writeByte (h : m.wf = true) :
    (m.writeByte a v).readByte b = if b = a then v else m.readByte b := by
  induction m with
  | nil =>
    simp only [Memory.writeByte]
    split <;> simp_all [Memory.readByte, eq_comm]
  | cons d rest ih =>
    obtain ⟨hd, hlt, hr⟩ := Memory.wf_cons.mp h
    simp only [Memory.writeByte]
    split
    · rename_i had
      have below : ∀ e ∈ d :: rest, a < e.1 := by
        intro e he
        rcases List.mem_cons.mp he with rfl | he
        · exact had
        · exact Nat.lt_trans had (hlt e he)
      split
      · by_cases hb : b = a
        · subst hb
          rw [if_pos rfl, Memory.readByte_of_lt below]
          exact Eq.symm ‹_›
        · rw [if_neg hb]
      · by_cases hb : b = a
        · simp [Memory.readByte, hb]
        · rw [if_neg hb]
          conv_lhs => rw [Memory.readByte]
          rw [if_neg (by simpa using Ne.symm hb)]
    · split
      · rename_i hda
        split
        · by_cases hb : b = a
          · subst hb
            rw [if_pos rfl, Memory.readByte_of_lt (by simpa [hda] using hlt)]
            exact Eq.symm ‹_›
          · rw [if_neg hb]
            simp only [Memory.readByte]
            rw [if_neg (by omega)]
        · by_cases hb : b = a
          · simp [Memory.readByte, hb]
          · rw [if_neg hb]
            simp only [Memory.readByte]
            rw [if_neg (by omega), if_neg (by omega)]
      · by_cases hb : d.1 = b
        · simp only [Memory.readByte, hb, if_true]
          rw [if_neg (by omega)]
        · simp only [Memory.readByte, hb, if_false]
          exact ih hr

/-- A read after storing a list of bytes: inside, the byte stored there; outside, as before. -/
theorem Memory.readByte_writeBytes (bs : List Byte) (h : m.wf = true) :
    (m.writeBytes a bs).readByte b =
      if hb : a ≤ b ∧ b < a + bs.length then bs[b - a]'(by omega) else m.readByte b := by
  induction bs generalizing m a with
  | nil =>
    rw [dif_neg (by simp)]
    rfl
  | cons c bs ih =>
    simp only [Memory.writeBytes]
    rw [ih (Memory.wf_writeByte h), Memory.readByte_writeByte h]
    by_cases h1 : b = a
    · subst h1
      simp
    · by_cases h2 : a + 1 ≤ b ∧ b < a + 1 + bs.length
      · have h3 : a ≤ b ∧ b < a + (c :: bs).length := by
          simp only [List.length_cons]
          omega
        rw [dif_pos h2, dif_pos h3]
        simp only [show b - a = (b - (a + 1)) + 1 by omega, List.getElem_cons_succ]
      · have h3 : ¬ (a ≤ b ∧ b < a + (c :: bs).length) := by
          simp only [List.length_cons]
          omega
        rw [dif_neg h2, if_neg h1, dif_neg h3]

@[simp] theorem Memory.readBytes_length (n : Nat) : (m.readBytes a n).length = n := by
  induction n generalizing a with
  | zero => rfl
  | succ n ih => simp [Memory.readBytes, ih]

theorem Memory.readBytes_getElem (n k : Nat) (h : k < (m.readBytes a n).length) :
    (m.readBytes a n)[k] = m.readByte (a + k) := by
  induction n generalizing a k with
  | zero => simp at h
  | succ n ih =>
    cases k with
    | zero => rfl
    | succ k =>
      simp only [Memory.readBytes, List.getElem_cons_succ]
      rw [ih]
      congr 1
      omega

end Sys2Proof.Machine
end

