-- ==== Sys2Proof/Laws/Decode.lean ====
section
/-! SUPPORT. The laws of the readers of code bytes and of the fields of the encoding
(30_encoding.md R77 to R90), from which the proofs about decode and encode are put together. -/

namespace Sys2Proof

/-! ### Reading bytes -/

@[simp] theorem nextByte_cons (b : Byte) (bs : List Byte) : nextByte (b :: bs) = .ok (b, bs) := rfl

@[simp] theorem nextByte_nil : nextByte [] = .error .truncated := rfl

/-- What reading `n` bytes answers. -/
theorem nextLE_eq (n : Nat) (bs : List Byte) : nextLE n bs =
    if n ≤ bs.length then .ok (leValue (bs.take n), bs.drop n) else .error .truncated := by
  induction n generalizing bs with
  | zero => simp [nextLE, leValue]
  | succ n ih =>
    cases bs with
    | nil => simp [nextLE]
    | cons b bs =>
      simp only [nextLE, ih, List.length_cons, Nat.add_le_add_iff_right]
      by_cases h : n ≤ bs.length <;> simp [h, leValue]

/-- Reading the `n` bytes of a number gives the number back, and what follows. -/
theorem nextLE_leBytes (n v : Nat) (rest : List Byte) (h : v < 256 ^ n) :
    nextLE n (leBytes n v ++ rest) = .ok (v, rest) := by
  rw [nextLE_eq, if_pos (by simp)]
  simp [leValue_leBytes, Nat.mod_eq_of_lt h]

/-- Reading `n` bytes that are there: the bytes are those of the value read. -/
theorem nextLE_ok {n v : Nat} {bs rest : List Byte} (h : nextLE n bs = .ok (v, rest)) :
    bs = leBytes n v ++ rest ∧ v < 256 ^ n := by
  rw [nextLE_eq] at h
  split at h
  · rename_i hn
    cases h
    have hl : (bs.take n).length = n := by simp [hn]
    refine ⟨?_, by simpa [hl] using leValue_lt (bs.take n)⟩
    have e := leBytes_leValue (bs.take n)
    rw [hl] at e
    rw [e, List.take_append_drop]
  · cases h

/-- Reading bytes fails only by running out of them. -/
theorem nextLE_error {n : Nat} {bs : List Byte} {c : FaultCode} (h : nextLE n bs = .error c) :
    c = .truncated ∧ bs.length < n := by
  rw [nextLE_eq] at h
  split at h
  · cases h
  · cases h
    exact ⟨rfl, by omega⟩

/-- What matching fixed bytes accepts. -/
theorem matchBytes_ok {es bs rest : List Byte} : matchBytes es bs = .ok rest ↔ bs = es ++ rest := by
  induction es generalizing bs with
  | nil => simp [matchBytes]
  | cons e es ih =>
    cases bs with
    | nil => simp [matchBytes]
    | cons b bs =>
      simp only [matchBytes, List.cons_append, List.cons.injEq]
      by_cases h : b = e <;> simp [h, ih]

/-! ### Prefix bytes -/

theorem isRex_append (r : Rex) : isRex (0b0100#4 ++ r) = true := by
  revert r; decide

theorem rex_low_append (r : Rex) : (0b0100#4 ++ r : Byte).extractLsb' 0 4 = r := by
  revert r; decide

theorem rex_ne_osz (r : Rex) : (0b0100#4 ++ r : Byte) ≠ oszByte := by
  revert r; decide

theorem isRex_oszByte : isRex oszByte = false := by decide

/-- A REX byte is `0100` and its low nibble. -/
theorem eq_of_isRex (b : Byte) (h : isRex b = true) : b = 0b0100#4 ++ b.extractLsb' 0 4 := by
  revert h; revert b; decide

/-- Prefix bytes before an opcode byte are read back. -/
theorem readPrefixes_encode (p : Prefixes) (op : Byte) (rest : List Byte)
    (h1 : op ≠ oszByte) (h2 : isRex op = false) :
    readPrefixes (p.encode ++ op :: rest) = (p, op :: rest) := by
  obtain ⟨osz, rex⟩ := p
  cases osz <;> cases rex <;>
    simp [Prefixes.encode, readPrefixes, readOsz, readRex, h1, h2, isRex_append, rex_low_append,
      rex_ne_osz]

/-- What `readPrefixes` has read are the prefix bytes. -/
theorem encode_readPrefixes (bs : List Byte) :
    (readPrefixes bs).1.encode ++ (readPrefixes bs).2 = bs := by
  have osz : ∀ l : List Byte,
      (if (readOsz l).1 then [oszByte] else []) ++ (readOsz l).2 = l := by
    intro l
    cases l with
    | nil => rfl
    | cons b l => by_cases h : b = oszByte <;> simp [readOsz, h]
  have rex : ∀ l : List Byte,
      Prefixes.encode ⟨false, (readRex l).1⟩ ++ (readRex l).2 = l := by
    intro l
    cases l with
    | nil => rfl
    | cons b l =>
      by_cases h : isRex b = true
      · simp [Prefixes.encode, readRex, h, ← eq_of_isRex b h]
      · simp [Prefixes.encode, readRex, h]
  have split : ∀ (o : Bool) (r : Option Rex), Prefixes.encode ⟨o, r⟩ =
      (if o then [oszByte] else []) ++ Prefixes.encode ⟨false, r⟩ := by
    intro o r
    cases o <;> rfl
  show Prefixes.encode ⟨(readOsz bs).1, (readRex (readOsz bs).2).1⟩ ++ (readRex (readOsz bs).2).2 = bs
  rw [split, List.append_assoc, rex]
  exact osz bs

theorem Prefixes.encode_length (p : Prefixes) : p.encode.length = p.count := by
  obtain ⟨osz, rex⟩ := p
  cases osz <;> cases rex <;> rfl

@[simp] theorem Prefixes.count_bare : Prefixes.bare.count = 0 := rfl

@[simp] theorem MemRef.encode_length (m : MemRef) (reg : BitVec 3) : (m.encode reg).length = 2 := rfl

/-! ### Fields of the ModRM and opcode bytes -/

theorem modRM_mod (mod : BitVec 2) (reg rm : BitVec 3) :
    (modRM mod reg rm).extractLsb' 6 2 = mod := by
  revert mod reg rm; decide

theorem modRM_reg (mod : BitVec 2) (reg rm : BitVec 3) :
    (modRM mod reg rm).extractLsb' 3 3 = reg := by
  revert mod reg rm; decide

theorem modRM_rm (mod : BitVec 2) (reg rm : BitVec 3) :
    (modRM mod reg rm).extractLsb' 0 3 = rm := by
  revert mod reg rm; decide

/-- A byte is the ModRM byte of its own fields. -/
theorem modRM_fields (b : Byte) :
    modRM (b.extractLsb' 6 2) (b.extractLsb' 3 3) (b.extractLsb' 0 3) = b := by
  revert b; decide

theorem plusR_high (op : BitVec 5) (n : RegNum) : (plusR op n).extractLsb' 3 5 = op := by
  revert op n; decide

theorem plusR_low (op : BitVec 5) (n : RegNum) :
    (plusR op n).extractLsb' 0 3 = RegNum.field n := by
  revert op n; decide

/-- An opcode byte is the `+r` byte of its own parts, whatever the extension bit. -/
theorem plusR_parts (b : Byte) (bit : Bool) :
    plusR (b.extractLsb' 3 5) (regNum bit (b.extractLsb' 0 3)) = b := by
  revert b bit; decide

/-! ### Register numbers -/

theorem regNum_field (n : RegNum) (bit : Bool) (h : RegNum.hasBit n bit = true) :
    regNum bit (RegNum.field n) = n := by
  revert h; revert n bit; decide

theorem field_regNum (bit : Bool) (f : BitVec 3) : RegNum.field (regNum bit f) = f := by
  revert bit f; decide

theorem hasBit_regNum (bit : Bool) (f : BitVec 3) : RegNum.hasBit (regNum bit f) bit = true := by
  revert bit f; decide

/-- The 8-bit identifier of a selectable identifier's field is that identifier. -/
theorem reg8_field (p : Prefixes) (r : Reg8) (h : r.selectable p = true) :
    reg8 p r.field = r := by
  obtain ⟨osz, rex⟩ := p
  cases rex with
  | none =>
    cases r with
    | low n =>
      simp only [Reg8.selectable] at h
      simp only [reg8, Reg8.field, Option.isSome_none, Bool.false_eq_true, if_false]
      revert h; revert n; decide
    | high n =>
      clear h
      simp only [reg8, Reg8.field, Option.isSome_none, Bool.false_eq_true, if_false]
      revert n; decide
  | some x =>
    cases r with
    | low n =>
      simp only [Reg8.selectable] at h
      simp only [reg8, Reg8.field, Option.isSome_some, if_true]
      exact congrArg Reg8.low (regNum_field n _ h)
    | high n => simp [Reg8.selectable] at h

theorem field_reg8 (p : Prefixes) (f : BitVec 3) : (reg8 p f).field = f := by
  unfold reg8
  split
  · exact field_regNum _ _
  · split
    · rename_i h
      simp only [Reg8.field]
      revert h; revert f; decide
    · exact field_regNum _ _

/-- Every field names an identifier that the prefixes can select. -/
theorem selectable_reg8 (p : Prefixes) (f : BitVec 3) : (reg8 p f).selectable p = true := by
  obtain ⟨osz, rex⟩ := p
  cases rex with
  | none =>
    simp only [reg8, Option.isSome_none, Bool.false_eq_true, if_false]
    by_cases h : f.getLsbD 2 = true
    · simp [h, Reg8.selectable]
    · simp only [h, Bool.false_eq_true, if_false, Reg8.selectable]
      revert h; revert f; decide
  | some x => exact hasBit_regNum _ f

/-! ### Immediates -/

theorem toNat_lt_256_pow (k n : Nat) (h : n = 8 * k) (v : BitVec n) : v.toNat < 256 ^ k := by
  subst h
  have := v.isLt
  rwa [Nat.pow_mul] at this

theorem Width.bits_eq (w : Width) : w.bits = 8 * w.bytes := by cases w <;> rfl

/-! ### Opcode dispatch, forwards and backwards -/

/-- The opcode and ModRM bytes of a selected row (30_encoding.md R94). -/
def Selected.head (s : Selected) : List Byte :=
  match s.form with
  | .movRmR => [0x89, modRM 3 s.reg s.rm]
  | .movRImm => [plusR 0b10111#5 (regNum false s.rm)]
  | .movRmImm => [0xC7, modRM 3 s.reg s.rm]
  | .movR8M8 => [0x8A, modRM 1 s.reg s.rm]
  | .movM8R8 => [0x88, modRM 1 s.reg s.rm]
  | .movR32M32 => [0x8B, modRM 1 s.reg s.rm]
  | .movM32R32 => [0x89, modRM 1 s.reg s.rm]
  | .movM32Imm32 => [0xC7, modRM 1 s.reg s.rm]
  | .xorRmR => [0x31, modRM 3 s.reg s.rm]
  | .subRmImm8 => [0x83, modRM 3 s.reg s.rm]
  | .subRmImm32 => [0x81, modRM 3 s.reg s.rm]
  | .cmpM8Imm8 => [0x80, modRM 1 s.reg s.rm]
  | .pushR64 => [plusR 0b01010#5 (regNum false s.rm)]
  | .popR64 => [plusR 0b01011#5 (regNum false s.rm)]
  | .jeRel8 => [0x74]
  | .jeRel32 => [0x0F, 0x84]
  | .jmpRel32 => [0xE9]
  | .endbr64 => [0xF3, 0x0F, 0x1E, 0xFA]
  | .hlt => [0xF4]
  | .ret => [0xC3]

/-- The row's condition on the fields. -/
def Selected.fieldsOk (s : Selected) : Prop :=
  match s.form with
  | .movRmImm => s.reg = 0#3
  | .movR8M8 | .movM8R8 | .movR32M32 | .movM32R32 => s.rm ≠ 4#3
  | .movM32Imm32 => s.reg = 0#3 ∧ s.rm ≠ 4#3
  | .subRmImm8 | .subRmImm32 => s.reg = 5#3
  | .cmpM8Imm8 => s.reg = 7#3 ∧ s.rm ≠ 4#3
  | _ => True

/-- What `selectMemory` accepts. -/
theorem selectMemory_ok {f g : Form} {mod : BitVec 2} {rm : BitVec 3}
    (h : selectMemory f mod rm = .ok g) : g = f ∧ mod = 1 ∧ rm ≠ 4 := by
  unfold selectMemory at h
  split at h <;> cases h
  exact ⟨rfl, ‹_›⟩

/-- What `selectRegister` accepts. -/
theorem selectRegister_ok {f g : Form} {mod : BitVec 2} (h : selectRegister f mod = .ok g) :
    g = f ∧ mod = 3 := by
  unfold selectRegister at h
  split at h <;> cases h
  exact ⟨rfl, ‹_›⟩

/-- What `selectRow` accepts. -/
theorem selectRow_ok {op : Byte} {mod : BitVec 2} {reg rm : BitVec 3} {f : Form}
    (h : selectRow op mod reg rm = .ok f) :
    [op, modRM mod reg rm] = Selected.head ⟨f, reg, rm⟩ ∧ Selected.fieldsOk ⟨f, reg, rm⟩ := by
  unfold selectRow at h
  split at h
  · obtain ⟨rfl, rfl, h'⟩ := selectMemory_ok h; subst_vars; exact ⟨rfl, h'⟩
  split at h
  · subst_vars
    split at h
    · cases h; subst_vars; exact ⟨rfl, trivial⟩
    · obtain ⟨rfl, rfl, h'⟩ := selectMemory_ok h; exact ⟨rfl, h'⟩
  split at h
  · obtain ⟨rfl, rfl, h'⟩ := selectMemory_ok h; subst_vars; exact ⟨rfl, h'⟩
  split at h
  · obtain ⟨rfl, rfl, h'⟩ := selectMemory_ok h; subst_vars; exact ⟨rfl, h'⟩
  split at h
  · subst_vars
    split at h
    · cases h
    · have hr := not_not.mp ‹¬ (reg ≠ 0)›
      split at h
      · cases h; subst_vars; exact ⟨rfl, rfl⟩
      · obtain ⟨rfl, rfl, h'⟩ := selectMemory_ok h; exact ⟨rfl, hr, h'⟩
  split at h
  · obtain ⟨rfl, rfl⟩ := selectRegister_ok h; subst_vars; exact ⟨rfl, trivial⟩
  split at h
  · subst_vars
    split at h
    · cases h
    · have hr := not_not.mp ‹¬ (reg ≠ 5)›
      obtain ⟨rfl, rfl⟩ := selectRegister_ok h; exact ⟨rfl, hr⟩
  split at h
  · subst_vars
    split at h
    · cases h
    · have hr := not_not.mp ‹¬ (reg ≠ 5)›
      obtain ⟨rfl, rfl⟩ := selectRegister_ok h; exact ⟨rfl, hr⟩
  split at h
  · subst_vars
    split at h
    · cases h
    · have hr := not_not.mp ‹¬ (reg ≠ 7)›
      obtain ⟨rfl, rfl, h'⟩ := selectMemory_ok h; exact ⟨rfl, hr, h'⟩
  · cases h

/-- What `oneByteForm` accepts. -/
theorem oneByteForm_ok (op : Byte) (f : Form) (h : oneByteForm op = some f) :
    [op] = Selected.head ⟨f, 0, op.extractLsb' 0 3⟩ ∧ Selected.fieldsOk ⟨f, 0, op.extractLsb' 0 3⟩ := by
  revert h
  unfold oneByteForm
  split_ifs <;> intro h <;> cases h <;> refine ⟨?_, trivial⟩
  · simp only [Selected.head]; rw [← ‹op.extractLsb' 3 5 = 0b01010#5›, plusR_parts]
  · simp only [Selected.head]; rw [← ‹op.extractLsb' 3 5 = 0b01011#5›, plusR_parts]
  · simp only [Selected.head]; rw [← ‹op.extractLsb' 3 5 = 0b10111#5›, plusR_parts]
  all_goals subst_vars; rfl

/-- What `selectForm` accepts: the bytes read are the head of the row. -/
theorem selectForm_ok {op : Byte} {bs rest : List Byte} {s : Selected}
    (h : selectForm op bs = .ok (s, rest)) : op :: bs = s.head ++ rest ∧ s.fieldsOk := by
  unfold selectForm at h
  split_ifs at h
  · split at h <;> cases h
    rename_i h
    rw [matchBytes_ok] at h; subst_vars; exact ⟨rfl, trivial⟩
  · split at h <;> cases h
    rename_i h
    rw [matchBytes_ok] at h; subst_vars; exact ⟨rfl, trivial⟩
  · cases bs with
    | nil => simp at h
    | cons m bs =>
      simp only [nextByte_cons] at h
      split at h <;> cases h
      rename_i h
      have := selectRow_ok h
      rw [modRM_fields] at this
      refine ⟨?_, this.2⟩
      rw [← this.1]; rfl
  · split at h <;> cases h
    rename_i h
    have := oneByteForm_ok _ _ h
    exact ⟨by rw [← this.1]; rfl, this.2⟩

/-- What `decodeOpcode` has read when it answers an instruction. -/
theorem decodeOpcode_ok {p : Prefixes} {bs rest : List Byte} {i : Instr}
    (h : decodeOpcode p bs = .ok (i, rest)) :
    ∃ s tail, bs = s.head ++ tail ∧ s.fieldsOk ∧ s.form.allowance.admits p = true ∧
      readOperands p s tail = .ok (i, rest) := by
  unfold decodeOpcode at h
  cases bs with
  | nil => simp at h
  | cons op bs =>
    simp only [nextByte_cons] at h
    split_ifs at h
    split at h
    · cases h
    · rename_i hs
      split_ifs at h
      exact ⟨_, _, (selectForm_ok hs).1, (selectForm_ok hs).2, ‹_›, h⟩

/-- The inversion lemma of `decode`: what a decode that answers an instruction has read. -/
theorem decode_ok {bs rest : List Byte} {i : Instr} (h : decode bs = .ok (i, rest)) :
    ∃ p s tail, bs = p.encode ++ s.head ++ tail ∧ s.fieldsOk ∧ s.form.allowance.admits p = true ∧
      readOperands p s tail = .ok (i, rest) := by
  obtain ⟨s, tail, e, h⟩ := decodeOpcode_ok h
  exact ⟨_, s, tail, by rw [List.append_assoc, ← e, encode_readPrefixes], h⟩

/-- What `withImm` accepts. -/
theorem withImm_ok {n : Nat} {k : Nat → Instr} {bs rest : List Byte} {i : Instr}
    (h : withImm n k bs = .ok (i, rest)) :
    ∃ v, v < 256 ^ n ∧ bs = leBytes n v ++ rest ∧ i = k v := by
  unfold withImm at h
  split at h <;> cases h
  rename_i h
  exact ⟨_, (nextLE_ok h).2, (nextLE_ok h).1, rfl⟩

/-- What `withMemImm` accepts. -/
theorem withMemImm_ok {p : Prefixes} {s : Selected} {n : Nat} {k : MemRef → Nat → Instr}
    {bs rest : List Byte} {i : Instr} (h : withMemImm p s n k bs = .ok (i, rest)) :
    ∃ d8 v, v < 256 ^ n ∧ bs = d8 :: leBytes n v ++ rest ∧ i = k (memRef p s.rm d8) v := by
  unfold withMemImm at h
  cases bs with
  | nil => simp at h
  | cons d8 bs =>
    obtain ⟨v, h1, h2, h3⟩ := withImm_ok h
    exact ⟨d8, v, h1, by rw [h2]; rfl, h3⟩

/-- A memory operand read from a field other than 100 is one that the prefixes can encode. -/
theorem encodable_memRef (p : Prefixes) (f : BitVec 3) (d8 : Byte) (h : f ≠ 4) :
    (memRef p f d8).encodable p = true := by
  have : ∀ (b : Bool) (f : BitVec 3), f ≠ 4#3 →
      (RegNum.hasBit (regNum b f) b && (regNum b f).setWidth 3 != 4#3) = true := by decide
  exact this p.b f h

/-- The extension bit does not stand in the opcode byte. -/
theorem plusR_eq (op : BitVec 5) (b c : Bool) (f : BitVec 3) :
    plusR op (regNum b f) = plusR op (regNum c f) := by
  revert op b c f; decide

/-- A row that allows no prefix admits only the bare prefixes. -/
theorem eq_bare {p : Prefixes} (h : Allowance.admits ⟨false, 0, false⟩ p = true) :
    p = Prefixes.bare := by
  obtain ⟨osz, rex⟩ := p
  cases osz <;> cases rex <;> simp_all [Allowance.admits, Prefixes.bare]

/-- Decoding prefix bytes and an opcode byte goes on with opcode dispatch. -/
theorem decode_encode_prefixes (p : Prefixes) (op : Byte) (rest : List Byte) (h1 : op ≠ oszByte)
    (h2 : isRex op = false) :
    decode (p.encode ++ op :: rest) = decodeOpcode p (op :: rest) := by
  simp only [decode, readPrefixes_encode p op rest h1 h2]

/-- Decoding prefix bytes and the head of a row reads the operands if the row allows the prefixes. -/
theorem decode_head (p : Prefixes) (s : Selected) (tail : List Byte) (h : s.fieldsOk) :
    decode (p.encode ++ (s.head ++ tail)) =
      if s.form.allowance.admits p then readOperands p s tail else .error .unsupportedPrefix := by
  have plus : ∀ (f : BitVec 3) (op : BitVec 5), op = 10#5 ∨ op = 11#5 ∨ op = 23#5 →
      plusR op (regNum false f) ≠ oszByte ∧ isRex (plusR op (regNum false f)) = false ∧
      plusR op (regNum false f) ≠ 15#8 ∧ plusR op (regNum false f) ≠ 243#8 ∧
      hasModRM (plusR op (regNum false f)) = false := by decide
  obtain ⟨f, reg, rm⟩ := s
  cases f
  case movRImm =>
    obtain ⟨k1, k2, k3, k4, k5⟩ := plus rm 23#5 (by decide)
    simp only [Selected.head, List.cons_append, List.nil_append]
    rw [decode_encode_prefixes _ _ _ k1 k2]
    simp [decodeOpcode, k1, k2, selectForm, k3, k4, k5, oneByteForm, plusR_high, plusR_low, field_regNum, readOperands]
  case pushR64 =>
    obtain ⟨k1, k2, k3, k4, k5⟩ := plus rm 10#5 (by decide)
    simp only [Selected.head, List.cons_append, List.nil_append]
    rw [decode_encode_prefixes _ _ _ k1 k2]
    simp [decodeOpcode, k1, k2, selectForm, k3, k4, k5, oneByteForm, plusR_high, plusR_low, field_regNum, readOperands]
  case popR64 =>
    obtain ⟨k1, k2, k3, k4, k5⟩ := plus rm 11#5 (by decide)
    simp only [Selected.head, List.cons_append, List.nil_append]
    rw [decode_encode_prefixes _ _ _ k1 k2]
    simp [decodeOpcode, k1, k2, selectForm, k3, k4, k5, oneByteForm, plusR_high, plusR_low, field_regNum, readOperands]
  all_goals
    simp only [Selected.fieldsOk] at h
    simp only [Selected.head, List.cons_append, List.nil_append]
    rw [decode_encode_prefixes _ _ _ (by decide) (by decide)]
    simp [decodeOpcode, oszByte, isRex, selectForm, hasModRM, selectRow, selectRegister, selectMemory, modRM_mod, modRM_reg,
      modRM_rm, matchBytes, oneByteForm, readOperands, h]

/-- A memory operand is read back from its field. -/
theorem memRef_field (p : Prefixes) (m : MemRef) (h : m.encodable p = true) :
    memRef p (RegNum.field m.base) m.d8 = m := by
  simp only [MemRef.encodable, Bool.and_eq_true] at h
  simp [memRef, regNum_field _ _ h.1]

/-- The code bytes of an instruction after its prefixes are the head of its row, whose fields are in
order, and the bytes that `readOperands` reads. -/
theorem body_eq_head (i : Instr) (h : i.operandsOk = true) :
    ∃ (s : Selected) (tail : List Byte), i.body = s.head ++ tail ∧ s.fieldsOk ∧ s.form = i.form := by
  have rmne : ∀ (p : Prefixes) (m : MemRef), m.encodable p = true → RegNum.field m.base ≠ 4#3 := by
    intro p m h
    simp only [MemRef.encodable, Bool.and_eq_true] at h
    have h2 := h.2
    obtain ⟨b, d⟩ := m
    simp only at h2 ⊢
    clear h
    revert b; decide
  have pl : ∀ (op : BitVec 5) (r : RegNum), plusR op r = plusR op (regNum false (RegNum.field r)) := by decide
  cases i <;> simp only [Instr.operandsOk, Bool.and_eq_true] at h
  case movRmR _ w rm reg => exact ⟨⟨.movRmR, RegNum.field reg, RegNum.field rm⟩, [], rfl, trivial, rfl⟩
  case movRImm _ w r imm => exact ⟨⟨.movRImm, 0, RegNum.field r⟩, leBytes w.bytes imm.toNat, by simp only [Instr.body, Selected.head]; rw [pl]; rfl, trivial, rfl⟩
  case movRmImm _ w rm imm => exact ⟨⟨.movRmImm, 0, RegNum.field rm⟩, _, rfl, rfl, rfl⟩
  case movR8M8 _ r m => exact ⟨⟨.movR8M8, r.field, RegNum.field m.base⟩, [m.d8], rfl, rmne _ _ h.2, rfl⟩
  case movM8R8 _ m r => exact ⟨⟨.movM8R8, r.field, RegNum.field m.base⟩, [m.d8], rfl, rmne _ _ h.2, rfl⟩
  case movR32M32 _ r m => exact ⟨⟨.movR32M32, RegNum.field r, RegNum.field m.base⟩, [m.d8], rfl, rmne _ _ h.2, rfl⟩
  case movM32R32 _ m r => exact ⟨⟨.movM32R32, RegNum.field r, RegNum.field m.base⟩, [m.d8], rfl, rmne _ _ h.2, rfl⟩
  case movM32Imm32 _ m imm => exact ⟨⟨.movM32Imm32, 0, RegNum.field m.base⟩, m.d8 :: leBytes 4 imm.toNat, rfl, ⟨rfl, rmne _ _ h⟩, rfl⟩
  case xorRmR _ w rm reg => exact ⟨⟨.xorRmR, RegNum.field reg, RegNum.field rm⟩, [], rfl, trivial, rfl⟩
  case subRmImm8 _ w rm imm => exact ⟨⟨.subRmImm8, 5, RegNum.field rm⟩, _, rfl, rfl, rfl⟩
  case subRmImm32 _ w rm imm => exact ⟨⟨.subRmImm32, 5, RegNum.field rm⟩, _, rfl, rfl, rfl⟩
  case cmpM8Imm8 _ m imm => exact ⟨⟨.cmpM8Imm8, 7, RegNum.field m.base⟩, m.d8 :: leBytes 1 imm.toNat, rfl, ⟨rfl, rmne _ _ h⟩, rfl⟩
  case pushR64 _ r => exact ⟨⟨.pushR64, 0, RegNum.field r⟩, [], by simp only [Instr.body, Selected.head]; rw [pl]; rfl, trivial, rfl⟩
  case popR64 _ r => exact ⟨⟨.popR64, 0, RegNum.field r⟩, [], by simp only [Instr.body, Selected.head]; rw [pl]; rfl, trivial, rfl⟩
  case jeRel8 c => exact ⟨⟨.jeRel8, 0, 0⟩, leBytes 1 c.toNat, rfl, trivial, rfl⟩
  case jeRel32 c => exact ⟨⟨.jeRel32, 0, 0⟩, leBytes 4 c.toNat, rfl, trivial, rfl⟩
  case jmpRel32 c => exact ⟨⟨.jmpRel32, 0, 0⟩, leBytes 4 c.toNat, rfl, trivial, rfl⟩
  case endbr64 => exact ⟨⟨.endbr64, 0, 0⟩, [], rfl, trivial, rfl⟩
  case hlt => exact ⟨⟨.hlt, 0, 0⟩, [], rfl, trivial, rfl⟩
  case ret => exact ⟨⟨.ret, 0, 0⟩, [], rfl, trivial, rfl⟩

end Sys2Proof
end

