-- ==== Sys2Proof/Laws/State.lean ====
section
/-! SUPPORT. One lemma per field per update of State, each true by unfolding the update once, so that
no later proof unfolds one. -/

namespace Sys2Proof.Machine

variable (s : State)

/-! ### Registers -/

@[simp] theorem State.writeGpr_ip (n : RegNum) (v : Word) : (s.writeGpr n v).ip = s.ip := rfl
@[simp] theorem State.writeGpr_spare (n : RegNum) (v : Word) : (s.writeGpr n v).spare = s.spare := rfl
@[simp] theorem State.writeGpr_rex (n : RegNum) (v : Word) : (s.writeGpr n v).rex = s.rex := rfl
@[simp] theorem State.writeGpr_osz (n : RegNum) (v : Word) : (s.writeGpr n v).osz = s.osz := rfl
@[simp] theorem State.writeGpr_eq (n : RegNum) (v : Word) : (s.writeGpr n v).eq = s.eq := rfl
@[simp] theorem State.writeGpr_run (n : RegNum) (v : Word) : (s.writeGpr n v).run = s.run := rfl
@[simp] theorem State.writeGpr_mem (n : RegNum) (v : Word) : (s.writeGpr n v).mem = s.mem := rfl
@[simp] theorem State.writeGpr_trace (n : RegNum) (v : Word) : (s.writeGpr n v).trace = s.trace := rfl
@[simp] theorem State.writeGpr_code (n : RegNum) (v : Word) : (s.writeGpr n v).code = s.code := rfl
@[simp] theorem State.writeGpr_sinkAttached (n : RegNum) (v : Word) : (s.writeGpr n v).sinkAttached = s.sinkAttached := rfl
@[simp] theorem State.writeGpr_params (n : RegNum) (v : Word) : (s.writeGpr n v).params = s.params := rfl

@[simp] theorem State.writeReg_ip {w : Nat} (r : RegId w) (v : BitVec w) : (s.writeReg r v).ip = s.ip := rfl
@[simp] theorem State.writeReg_spare {w : Nat} (r : RegId w) (v : BitVec w) : (s.writeReg r v).spare = s.spare := rfl
@[simp] theorem State.writeReg_rex {w : Nat} (r : RegId w) (v : BitVec w) : (s.writeReg r v).rex = s.rex := rfl
@[simp] theorem State.writeReg_osz {w : Nat} (r : RegId w) (v : BitVec w) : (s.writeReg r v).osz = s.osz := rfl
@[simp] theorem State.writeReg_eq {w : Nat} (r : RegId w) (v : BitVec w) : (s.writeReg r v).eq = s.eq := rfl
@[simp] theorem State.writeReg_run {w : Nat} (r : RegId w) (v : BitVec w) : (s.writeReg r v).run = s.run := rfl
@[simp] theorem State.writeReg_mem {w : Nat} (r : RegId w) (v : BitVec w) : (s.writeReg r v).mem = s.mem := rfl
@[simp] theorem State.writeReg_trace {w : Nat} (r : RegId w) (v : BitVec w) : (s.writeReg r v).trace = s.trace := rfl
@[simp] theorem State.writeReg_code {w : Nat} (r : RegId w) (v : BitVec w) : (s.writeReg r v).code = s.code := rfl
@[simp] theorem State.writeReg_sinkAttached {w : Nat} (r : RegId w) (v : BitVec w) : (s.writeReg r v).sinkAttached = s.sinkAttached := rfl
@[simp] theorem State.writeReg_params {w : Nat} (r : RegId w) (v : BitVec w) : (s.writeReg r v).params = s.params := rfl

@[simp] theorem State.readGpr_writeGpr_same (n : RegNum) (v : Word) :
    (s.writeGpr n v).readGpr n = v := by
  simp [State.readGpr, State.writeGpr]

theorem State.readGpr_writeGpr_ne (n m : RegNum) (v : Word) (h : m ≠ n) :
    (s.writeGpr n v).readGpr m = s.readGpr m := by
  have : n.toNat ≠ m.toNat := fun e => h (BitVec.eq_of_toNat_eq e.symm)
  simp [State.readGpr, State.writeGpr, this]

/-- Reading any register depends on the slots only. -/
theorem State.readGpr_congr (t : State) (h : t.gpr = s.gpr) (n : RegNum) :
    t.readGpr n = s.readGpr n := by
  simp [State.readGpr, h]

/-! ### The equality latch -/

@[simp] theorem State.compareEq_gpr (v imm : Byte) : (s.compareEq v imm).gpr = s.gpr := rfl
@[simp] theorem State.compareEq_ip (v imm : Byte) : (s.compareEq v imm).ip = s.ip := rfl
@[simp] theorem State.compareEq_spare (v imm : Byte) : (s.compareEq v imm).spare = s.spare := rfl
@[simp] theorem State.compareEq_rex (v imm : Byte) : (s.compareEq v imm).rex = s.rex := rfl
@[simp] theorem State.compareEq_osz (v imm : Byte) : (s.compareEq v imm).osz = s.osz := rfl
@[simp] theorem State.compareEq_eq (v imm : Byte) : (s.compareEq v imm).eq = .set (v == imm) := rfl
@[simp] theorem State.compareEq_run (v imm : Byte) : (s.compareEq v imm).run = s.run := rfl
@[simp] theorem State.compareEq_mem (v imm : Byte) : (s.compareEq v imm).mem = s.mem := rfl
@[simp] theorem State.compareEq_trace (v imm : Byte) : (s.compareEq v imm).trace = s.trace := rfl
@[simp] theorem State.compareEq_code (v imm : Byte) : (s.compareEq v imm).code = s.code := rfl
@[simp] theorem State.compareEq_sinkAttached (v imm : Byte) : (s.compareEq v imm).sinkAttached = s.sinkAttached := rfl
@[simp] theorem State.compareEq_params (v imm : Byte) : (s.compareEq v imm).params = s.params := rfl

@[simp] theorem State.clearEq_gpr : (s.clearEq).gpr = s.gpr := rfl
@[simp] theorem State.clearEq_ip : (s.clearEq).ip = s.ip := rfl
@[simp] theorem State.clearEq_spare : (s.clearEq).spare = s.spare := rfl
@[simp] theorem State.clearEq_rex : (s.clearEq).rex = s.rex := rfl
@[simp] theorem State.clearEq_osz : (s.clearEq).osz = s.osz := rfl
@[simp] theorem State.clearEq_eq : (s.clearEq).eq = .unset := rfl
@[simp] theorem State.clearEq_run : (s.clearEq).run = s.run := rfl
@[simp] theorem State.clearEq_mem : (s.clearEq).mem = s.mem := rfl
@[simp] theorem State.clearEq_trace : (s.clearEq).trace = s.trace := rfl
@[simp] theorem State.clearEq_code : (s.clearEq).code = s.code := rfl
@[simp] theorem State.clearEq_sinkAttached : (s.clearEq).sinkAttached = s.sinkAttached := rfl
@[simp] theorem State.clearEq_params : (s.clearEq).params = s.params := rfl

/-! ### Completing an instruction -/

theorem State.emit_trace (i : Instr) : (s.emit i).trace =
    if s.sinkAttached then s.trace ++ [s.params.line i] else s.trace := by
  unfold State.emit; split <;> rfl

@[simp] theorem State.emit_gpr (i : Instr) : (s.emit i).gpr = s.gpr := by unfold State.emit; split <;> rfl
@[simp] theorem State.emit_ip (i : Instr) : (s.emit i).ip = s.ip := by unfold State.emit; split <;> rfl
@[simp] theorem State.emit_spare (i : Instr) : (s.emit i).spare = s.spare := by unfold State.emit; split <;> rfl
@[simp] theorem State.emit_rex (i : Instr) : (s.emit i).rex = s.rex := by unfold State.emit; split <;> rfl
@[simp] theorem State.emit_osz (i : Instr) : (s.emit i).osz = s.osz := by unfold State.emit; split <;> rfl
@[simp] theorem State.emit_eq (i : Instr) : (s.emit i).eq = s.eq := by unfold State.emit; split <;> rfl
@[simp] theorem State.emit_run (i : Instr) : (s.emit i).run = s.run := by unfold State.emit; split <;> rfl
@[simp] theorem State.emit_mem (i : Instr) : (s.emit i).mem = s.mem := by unfold State.emit; split <;> rfl
@[simp] theorem State.emit_code (i : Instr) : (s.emit i).code = s.code := by unfold State.emit; split <;> rfl
@[simp] theorem State.emit_sinkAttached (i : Instr) : (s.emit i).sinkAttached = s.sinkAttached := by unfold State.emit; split <;> rfl
@[simp] theorem State.emit_params (i : Instr) : (s.emit i).params = s.params := by unfold State.emit; split <;> rfl

@[simp] theorem State.commit_gpr (i : Instr) (target : Int) : (s.commit i target).gpr = s.gpr := by simp [State.commit, State.emit_trace]
@[simp] theorem State.commit_ip (i : Instr) (target : Int) : (s.commit i target).ip = target := by simp [State.commit, State.emit_trace]
@[simp] theorem State.commit_spare (i : Instr) (target : Int) : (s.commit i target).spare = s.spare := by simp [State.commit, State.emit_trace]
@[simp] theorem State.commit_rex (i : Instr) (target : Int) : (s.commit i target).rex = none := by simp [State.commit, State.emit_trace]
@[simp] theorem State.commit_osz (i : Instr) (target : Int) : (s.commit i target).osz = false := by simp [State.commit, State.emit_trace]
@[simp] theorem State.commit_eq (i : Instr) (target : Int) : (s.commit i target).eq = s.eq := by simp [State.commit, State.emit_trace]
@[simp] theorem State.commit_run (i : Instr) (target : Int) : (s.commit i target).run = s.run := by simp [State.commit, State.emit_trace]
@[simp] theorem State.commit_mem (i : Instr) (target : Int) : (s.commit i target).mem = s.mem := by simp [State.commit, State.emit_trace]
@[simp] theorem State.commit_trace (i : Instr) (target : Int) : (s.commit i target).trace = if s.sinkAttached then s.trace ++ [s.params.line i] else s.trace := by simp [State.commit, State.emit_trace]
@[simp] theorem State.commit_code (i : Instr) (target : Int) : (s.commit i target).code = s.code := by simp [State.commit, State.emit_trace]
@[simp] theorem State.commit_sinkAttached (i : Instr) (target : Int) : (s.commit i target).sinkAttached = s.sinkAttached := by simp [State.commit, State.emit_trace]
@[simp] theorem State.commit_params (i : Instr) (target : Int) : (s.commit i target).params = s.params := by simp [State.commit, State.emit_trace]

/-! ### Latches and faults -/

@[simp] theorem State.latch_gpr (p : Prefixes) : (s.latch p).gpr = s.gpr := rfl
@[simp] theorem State.latch_ip (p : Prefixes) : (s.latch p).ip = s.ip := rfl
@[simp] theorem State.latch_spare (p : Prefixes) : (s.latch p).spare = s.spare := rfl
@[simp] theorem State.latch_rex (p : Prefixes) : (s.latch p).rex = p.rex := rfl
@[simp] theorem State.latch_osz (p : Prefixes) : (s.latch p).osz = p.osz := rfl
@[simp] theorem State.latch_eq (p : Prefixes) : (s.latch p).eq = s.eq := rfl
@[simp] theorem State.latch_run (p : Prefixes) : (s.latch p).run = s.run := rfl
@[simp] theorem State.latch_mem (p : Prefixes) : (s.latch p).mem = s.mem := rfl
@[simp] theorem State.latch_trace (p : Prefixes) : (s.latch p).trace = s.trace := rfl
@[simp] theorem State.latch_code (p : Prefixes) : (s.latch p).code = s.code := rfl
@[simp] theorem State.latch_sinkAttached (p : Prefixes) : (s.latch p).sinkAttached = s.sinkAttached := rfl
@[simp] theorem State.latch_params (p : Prefixes) : (s.latch p).params = s.params := rfl

@[simp] theorem State.afterFault_gpr (c : FaultCode) : (s.afterFault c).gpr = s.gpr := rfl
@[simp] theorem State.afterFault_ip (c : FaultCode) : (s.afterFault c).ip = s.ip := rfl
@[simp] theorem State.afterFault_spare (c : FaultCode) : (s.afterFault c).spare = s.spare := rfl
@[simp] theorem State.afterFault_rex (c : FaultCode) : (s.afterFault c).rex = none := rfl
@[simp] theorem State.afterFault_osz (c : FaultCode) : (s.afterFault c).osz = false := rfl
@[simp] theorem State.afterFault_eq (c : FaultCode) : (s.afterFault c).eq = s.eq := rfl
@[simp] theorem State.afterFault_run (c : FaultCode) : (s.afterFault c).run = .faulted c s.ip := rfl
@[simp] theorem State.afterFault_mem (c : FaultCode) : (s.afterFault c).mem = s.mem := rfl
@[simp] theorem State.afterFault_trace (c : FaultCode) : (s.afterFault c).trace = s.trace := rfl
@[simp] theorem State.afterFault_code (c : FaultCode) : (s.afterFault c).code = s.code := rfl
@[simp] theorem State.afterFault_sinkAttached (c : FaultCode) : (s.afterFault c).sinkAttached = s.sinkAttached := rfl
@[simp] theorem State.afterFault_params (c : FaultCode) : (s.afterFault c).params = s.params := rfl

/-! ### Reading a register after an update of another part of the state -/

@[simp] theorem State.readGpr_compareEq (v imm : Byte) (n : RegNum) :
    (s.compareEq v imm).readGpr n = s.readGpr n := State.readGpr_congr _ _ (by simp) n
@[simp] theorem State.readGpr_clearEq  (n : RegNum) :
    (s.clearEq).readGpr n = s.readGpr n := State.readGpr_congr _ _ (by simp) n
@[simp] theorem State.readGpr_commit (i : Instr) (target : Int) (n : RegNum) :
    (s.commit i target).readGpr n = s.readGpr n := State.readGpr_congr _ _ (by simp) n
@[simp] theorem State.readGpr_latch (p : Prefixes) (n : RegNum) :
    (s.latch p).readGpr n = s.readGpr n := State.readGpr_congr _ _ (by simp) n
@[simp] theorem State.readGpr_afterFault (c : FaultCode) (n : RegNum) :
    (s.afterFault c).readGpr n = s.readGpr n := State.readGpr_congr _ _ (by simp) n

end Sys2Proof.Machine
end

