-- ==== Sys2Proof/Laws/Ops.lean ====
section
/-! SUPPORT. One lemma per shared operation that says everything it can do; the provers cite these and
do not unfold the operations. -/

namespace Sys2Proof.Machine

variable {s t : State}

/-! ### Views of a slot (10_state.md R35 to R37) -/

theorem getLsbD_viewOf {w : Nat} (r : RegId w) (x : Word) (k : Nat) (h : k < w) :
    (viewOf r x).getLsbD k = x.getLsbD (8 * r.offset + k) := by
  simp [viewOf, h]

theorem getLsbD_replaceView {w : Nat} (r : RegId w) (x : Word) (v : BitVec w) (k : Nat)
    (h : k < 64) : (replaceView r x v).getLsbD k =
      if 8 * r.offset ≤ k ∧ k < 8 * r.offset + w then v.getLsbD (k - 8 * r.offset)
      else x.getLsbD k := by
  simp only [replaceView, BitVec.getLsbD_or, BitVec.getLsbD_and, BitVec.getLsbD_not,
    BitVec.getLsbD_shiftLeft, BitVec.getLsbD_setWidth, BitVec.getLsbD_allOnes, h, decide_true,
    Bool.true_and]
  by_cases h1 : k < 8 * r.offset
  · have : ¬ (8 * r.offset ≤ k ∧ k < 8 * r.offset + w) := by omega
    simp [h1, this]
  · have h2 : k - 8 * r.offset < 64 := by omega
    by_cases h3 : k - 8 * r.offset < w
    · have : 8 * r.offset ≤ k ∧ k < 8 * r.offset + w := by omega
      simp [h1, h2, h3, this]
    · have : ¬ (8 * r.offset ≤ k ∧ k < 8 * r.offset + w) := by omega
      simp [h1, h2, h3, this, BitVec.getLsbD_of_ge v _ (Nat.le_of_not_lt h3)]

/-- The low-half mask of a 32-bit write under `ZEXT32`. -/
theorem getLsbD_low32 (x : Word) (k : Nat) (h : k < 64) :
    (x &&& 0xFFFFFFFF#64).getLsbD k = (decide (k < 32) && x.getLsbD k) := by
  have : (0xFFFFFFFF#64).getLsbD k = decide (k < 32) := by
    have h64 : ∀ j : Fin 64, (0xFFFFFFFF#64).getLsbD j.1 = decide (j.1 < 32) := by decide
    exact h64 ⟨k, h⟩
  rw [BitVec.getLsbD_and, this, Bool.and_comm]

/-- A register write through an identifier, bit by bit, and what it leaves alone. -/
theorem State.readGpr_writeReg_ne {w : Nat} (r : RegId w) (v : BitVec w) (n : RegNum)
    (h : n ≠ r.slot) : (s.writeReg r v).readGpr n = s.readGpr n := by
  simp only [State.writeReg]
  exact State.readGpr_writeGpr_ne _ _ _ _ h

/-! ### Stack memory -/

theorem State.inRange_iff (ea : Word) (n : Nat) :
    s.inRange ea n = true ↔ ea.toNat + n ≤ s.params.stackSize := by
  simp [State.inRange]

/-- What a read answers: the value in range, STACK_OUT_OF_RANGE otherwise. -/
theorem State.memRead_cases (ea : Word) (w : Nat) :
    (ea.toNat + w / 8 ≤ s.params.stackSize ∧
      s.memRead ea w = .ok (BitVec.ofNat w (leValue (s.mem.readBytes ea.toNat (w / 8))))) ∨
    (s.params.stackSize < ea.toNat + w / 8 ∧ s.memRead ea w = .error .stackOutOfRange) := by
  unfold State.memRead
  by_cases h : ea.toNat + w / 8 ≤ s.params.stackSize
  · rw [if_pos ((State.inRange_iff _ _).mpr h)]
    exact .inl ⟨h, rfl⟩
  · rw [if_neg (by rwa [State.inRange_iff])]
    exact .inr ⟨by omega, rfl⟩

/-- What a write answers: the state with the bytes stored in range, STACK_OUT_OF_RANGE otherwise. -/
theorem State.memWrite_cases {w : Nat} (ea : Word) (v : BitVec w) :
    (ea.toNat + w / 8 ≤ s.params.stackSize ∧
      s.memWrite ea v =
        .ok { s with mem := s.mem.writeBytes ea.toNat (leBytes (w / 8) v.toNat) }) ∨
    (s.params.stackSize < ea.toNat + w / 8 ∧ s.memWrite ea v = .error .stackOutOfRange) := by
  unfold State.memWrite
  by_cases h : ea.toNat + w / 8 ≤ s.params.stackSize
  · rw [if_pos ((State.inRange_iff _ _).mpr h)]
    exact .inl ⟨h, rfl⟩
  · rw [if_neg (by rwa [State.inRange_iff])]
    exact .inr ⟨by omega, rfl⟩

/-- A read in range. -/
theorem State.memRead_of_le (ea : Word) (w : Nat) (h : ea.toNat + w / 8 ≤ s.params.stackSize) :
    s.memRead ea w = .ok (BitVec.ofNat w (leValue (s.mem.readBytes ea.toNat (w / 8)))) := by
  rcases s.memRead_cases ea w with ⟨_, e⟩ | ⟨h', _⟩
  · exact e
  · omega

/-- A read out of range. -/
theorem State.memRead_of_lt (ea : Word) (w : Nat) (h : s.params.stackSize < ea.toNat + w / 8) :
    s.memRead ea w = .error .stackOutOfRange := by
  rcases s.memRead_cases ea w with ⟨h', _⟩ | ⟨_, e⟩
  · omega
  · exact e

/-- A write in range. -/
theorem State.memWrite_of_le {w : Nat} (ea : Word) (v : BitVec w)
    (h : ea.toNat + w / 8 ≤ s.params.stackSize) :
    s.memWrite ea v =
      .ok { s with mem := s.mem.writeBytes ea.toNat (leBytes (w / 8) v.toNat) } := by
  rcases s.memWrite_cases ea v with ⟨_, e⟩ | ⟨h', _⟩
  · exact e
  · omega

/-- A write out of range. -/
theorem State.memWrite_of_lt {w : Nat} (ea : Word) (v : BitVec w)
    (h : s.params.stackSize < ea.toNat + w / 8) :
    s.memWrite ea v = .error .stackOutOfRange := by
  rcases s.memWrite_cases ea v with ⟨h', _⟩ | ⟨_, e⟩
  · omega
  · exact e

/-! ### Completing, faulting, branching -/

theorem raiseFault_eq (c : FaultCode) : raiseFault c s = .next (s.afterFault c) := rfl

theorem complete_eq (i : Instr) : complete i s = .next (s.commit i (s.ip + i.length)) := rfl

/-- A state that differs from `s` only in registers, latch and memory completes as an instruction
run on `s`. -/
theorem completedAt_commit {u : State} (i : Instr) (target : Int) (hr : u.run = s.run)
    (ht : u.trace = s.trace) (hs : u.sinkAttached = s.sinkAttached) (hp : u.params = s.params)
    (hc : u.code = s.code) : CompletedAt i s (u.commit i target) target :=
  ⟨by simp, by simp [hr], by simp, by simp, by simp [ht, hs, hp],
    ⟨by simp [hc], by simp [hs], by simp [hp]⟩⟩

/-- What a taken branch answers: BRANCH_OUT_OF_RANGE, or the target within `[0, len]`. -/
theorem branch_cases (i : Instr) (d : Int) (s : State) :
    ((s.ip + i.length + d < 0 ∨ s.code.length < s.ip + i.length + d) ∧
      branch i d s = .next (s.afterFault .branchOutOfRange)) ∨
    (0 ≤ s.ip + i.length + d ∧ s.ip + i.length + d ≤ s.code.length ∧
      branch i d s = .next (s.commit i (s.ip + i.length + d))) := by
  unfold branch
  by_cases h : s.ip + i.length + d < 0 ∨ s.code.length < s.ip + i.length + d
  · exact .inl ⟨h, by simp only [if_pos h]; rfl⟩
  · exact .inr ⟨by omega, by omega, by simp only [if_neg h]⟩

/-- What JE answers: EQ_UNSET, a taken branch, or the next instruction. -/
theorem jumpIfEqual_cases (i : Instr) (d : Int) (s : State) :
    (s.eq = .unset ∧ jumpIfEqual i d s = .next (s.afterFault .eqUnset)) ∨
    (s.eq = .set true ∧ jumpIfEqual i d s = branch i d s) ∨
    (s.eq = .set false ∧ jumpIfEqual i d s = .next (s.commit i (s.ip + i.length))) := by
  unfold jumpIfEqual
  rcases h : s.eq with _ | (_ | _) <;> simp [raiseFault_eq, complete_eq]

/-- What a load answers: STACK_OUT_OF_RANGE, or what follows with the value read. -/
theorem State.load_cases (ea : Word) (w : Nat) (k : BitVec w → Result) :
    (s.params.stackSize < ea.toNat + w / 8 ∧
      s.load ea w k = .next (s.afterFault .stackOutOfRange)) ∨
    ∃ v, s.memRead ea w = .ok v ∧ s.load ea w k = k v := by
  unfold State.load
  rcases s.memRead_cases ea w with ⟨_, e⟩ | ⟨h, e⟩
  · exact .inr ⟨_, e, by simp [e]⟩
  · exact .inl ⟨h, by simp [e, raiseFault_eq]⟩

/-- What a store answers: STACK_OUT_OF_RANGE, or what follows with the bytes stored. -/
theorem State.store_cases {w : Nat} (ea : Word) (v : BitVec w) (k : State → Result) :
    (s.params.stackSize < ea.toNat + w / 8 ∧
      s.store ea v k = .next (s.afterFault .stackOutOfRange)) ∨
    ∃ t, s.memWrite ea v = .ok t ∧ s.store ea v k = k t := by
  unfold State.store
  rcases s.memWrite_cases ea v with ⟨_, e⟩ | ⟨h, e⟩
  · exact .inr ⟨_, e, by simp [e]⟩
  · exact .inl ⟨h, by simp [e, raiseFault_eq]⟩

/-- A load as one choice, for comparing two runs. -/
theorem State.load_eq (ea : Word) (w : Nat) (k : BitVec w → Result) : s.load ea w k =
    if ea.toNat + w / 8 ≤ s.params.stackSize then
      k (BitVec.ofNat w (leValue (s.mem.readBytes ea.toNat (w / 8))))
    else .next (s.afterFault .stackOutOfRange) := by
  unfold State.load
  split_ifs with h
  · rw [State.memRead_of_le ea w h]
  · rw [State.memRead_of_lt ea w (by omega)]
    rfl

/-- A store as one choice, for comparing two runs. -/
theorem State.store_eq {w : Nat} (ea : Word) (v : BitVec w) (k : State → Result) :
    s.store ea v k =
      if ea.toNat + w / 8 ≤ s.params.stackSize then
        k { s with mem := s.mem.writeBytes ea.toNat (leBytes (w / 8) v.toNat) }
      else .next (s.afterFault .stackOutOfRange) := by
  unfold State.store
  split_ifs with h
  · rw [State.memWrite_of_le ea v h]
  · rw [State.memWrite_of_lt ea v (by omega)]
    rfl

/-- A load in range goes on with the value read. -/
theorem State.load_of_ok {ea : Word} {w : Nat} {v : BitVec w} (k : BitVec w → Result)
    (h : s.memRead ea w = .ok v) : s.load ea w k = k v := by
  simp [State.load, h]

/-- A store in range goes on with the state stored to. -/
theorem State.store_of_ok {w : Nat} {ea : Word} {v : BitVec w} (k : State → Result)
    (h : s.memWrite ea v = .ok t) : s.store ea v k = k t := by
  simp [State.store, h]

/-! ### Everything an instruction can do -/

/-- The state an instruction commits on: the effects on registers, latch and memory, before `ip`, the
trace and the latches. Where `Effect i s u` holds, the instruction's checks have passed. -/
inductive Effect : Instr → State → State → Prop where
  | movRmR (pre : Prefixes) (w : Width) (rm reg : RegNum) (s : State) :
    Effect (.movRmR pre w rm reg) s (s.writeReg (w.reg rm) (s.readReg (w.reg reg)))
  | movRImm (pre : Prefixes) (w : Width) (r : RegNum) (imm : BitVec 64) (s : State) :
    Effect (.movRImm pre w r imm) s (s.writeReg (w.reg r) (shortImm w imm))
  | movRmImm (pre : Prefixes) (w : Width) (rm : RegNum) (imm : BitVec 32) (s : State) :
    Effect (.movRmImm pre w rm imm) s (s.writeReg (w.reg rm) (modRMImm w imm))
  | movR8M8 (pre : Prefixes) (reg : Reg8) (mem : MemRef) (s : State) (v : BitVec 8)
    (h : s.memRead (s.ea mem) 8 = .ok v) :
    Effect (.movR8M8 pre reg mem) s (s.writeReg reg.id v)
  | movM8R8 (pre : Prefixes) (mem : MemRef) (reg : Reg8) (s t : State)
    (h : s.memWrite (s.ea mem) (s.readReg reg.id) = .ok t) : Effect (.movM8R8 pre mem reg) s t
  | movR32M32 (pre : Prefixes) (reg : RegNum) (mem : MemRef) (s : State) (v : BitVec 32)
    (h : s.memRead (s.ea mem) 32 = .ok v) :
    Effect (.movR32M32 pre reg mem) s (s.writeReg (reg32 reg) v)
  | movM32R32 (pre : Prefixes) (mem : MemRef) (reg : RegNum) (s t : State)
    (h : s.memWrite (s.ea mem) (s.readReg (reg32 reg)) = .ok t) :
    Effect (.movM32R32 pre mem reg) s t
  | movM32Imm32 (pre : Prefixes) (mem : MemRef) (imm : BitVec 32) (s t : State)
    (h : s.memWrite (s.ea mem) imm = .ok t) : Effect (.movM32Imm32 pre mem imm) s t
  | xorRmR (pre : Prefixes) (w : Width) (rm reg : RegNum) (s : State) :
    Effect (.xorRmR pre w rm reg) s
      (s.writeReg (w.reg rm) (s.readReg (w.reg rm) ^^^ s.readReg (w.reg reg))).clearEq
  | subRmImm8 (pre : Prefixes) (w : Width) (rm : RegNum) (imm : BitVec 8) (s : State) :
    Effect (.subRmImm8 pre w rm imm) s
      (s.writeReg (w.reg rm) (s.readReg (w.reg rm) - subImm8 w imm)).clearEq
  | subRmImm32 (pre : Prefixes) (w : Width) (rm : RegNum) (imm : BitVec 32) (s : State) :
    Effect (.subRmImm32 pre w rm imm) s
      (s.writeReg (w.reg rm) (s.readReg (w.reg rm) - subImm32 w imm)).clearEq
  | cmpM8Imm8 (pre : Prefixes) (mem : MemRef) (imm : BitVec 8) (s : State) (v : BitVec 8)
    (h : s.memRead (s.ea mem) 8 = .ok v) : Effect (.cmpM8Imm8 pre mem imm) s (s.compareEq v imm)
  | pushR64 (pre : Prefixes) (r : RegNum) (s t : State)
    (h : s.memWrite (s.readGpr rsp - 8) (s.readGpr r) = .ok t) :
    Effect (.pushR64 pre r) s (t.writeGpr rsp (s.readGpr rsp - 8))
  | popR64 (pre : Prefixes) (r : RegNum) (s : State) (v : BitVec 64)
    (h : s.memRead (s.readGpr rsp) 64 = .ok v) :
    Effect (.popR64 pre r) s ((s.writeGpr rsp (s.readGpr rsp + 8)).writeGpr r v)
  | jeRel8 (cb : BitVec 8) (s : State) (h : s.eq ≠ .unset) : Effect (.jeRel8 cb) s s
  | jeRel32 (cd : BitVec 32) (s : State) (h : s.eq ≠ .unset) : Effect (.jeRel32 cd) s s
  | jmpRel32 (cd : BitVec 32) (s : State) : Effect (.jmpRel32 cd) s s
  | endbr64 (s : State) : Effect .endbr64 s s
  | hlt (s : State) : Effect .hlt s s
  | ret (s : State) : Effect .ret s s

/-- What running an instruction can lead to: a fault whose cause is named; its effect, committed at the
next instruction or at a taken branch's target in `[0, len]`; or, for HLT and RET, the end of the run
where it stands. -/
inductive Does (i : Instr) (s : State) : State → Prop where
  | outOfRange (base n : Nat) (h : i.accesses s = some (base, n))
    (hlt : s.params.stackSize < base + n) : Does i s (s.afterFault .stackOutOfRange)
  | eqUnset (h : i.form = .jeRel8 ∨ i.form = .jeRel32) (he : s.eq = .unset) :
    Does i s (s.afterFault .eqUnset)
  | branchOut (d : Int) (hd : i.displacement = some d)
    (h : i.form = .jmpRel32 ∨ ((i.form = .jeRel8 ∨ i.form = .jeRel32) ∧ s.eq = .set true))
    (hout : s.ip + i.length + d < 0 ∨ s.code.length < s.ip + i.length + d) :
    Does i s (s.afterFault .branchOutOfRange)
  | advances (u : State) (h : Effect i s u)
    (hf : i.form ≠ .hlt ∧ i.form ≠ .ret ∧ i.form ≠ .jmpRel32) :
    Does i s (u.commit i (s.ip + i.length))
  | jumps (target : Int) (h : Effect i s s)
    (hf : i.form = .jmpRel32 ∨ ((i.form = .jeRel8 ∨ i.form = .jeRel32) ∧ s.eq = .set true))
    (h0 : 0 ≤ target) (h1 : target ≤ s.code.length) : Does i s (s.commit i target)
  | halts (h : i = .hlt) : Does i s { s.commit i s.ip with run := .halted }
  | returns (h : i = .ret) : Does i s { s.commit i s.ip with run := .returned }

/-- The result of a meaning that reads memory and completes. -/
theorem does_of_load {w : Nat} (i : Instr) (ea : Word) (f : BitVec w → State)
    (e : exec i s = s.load ea w fun v => complete i (f v))
    (hip : ∀ v, (f v).ip = s.ip) (ha : i.accesses s = some (ea.toNat, w / 8))
    (heff : ∀ v, s.memRead ea w = .ok v → Effect i s (f v))
    (hf : i.form ≠ .hlt ∧ i.form ≠ .ret ∧ i.form ≠ .jmpRel32) :
    ∃ t, exec i s = .next t ∧ Does i s t := by
  rcases s.load_cases ea w fun v => complete i (f v) with ⟨h, e'⟩ | ⟨v, h, e'⟩
  · exact ⟨_, e.trans e', .outOfRange _ _ ha h⟩
  · exact ⟨_, e.trans (e'.trans (by rw [complete_eq, hip])), .advances _ (heff v h) hf⟩

/-- The result of a meaning that stores to memory and completes. -/
theorem does_of_store {w : Nat} (i : Instr) (ea : Word) (v : BitVec w) (f : State → State)
    (e : exec i s = s.store ea v fun t => complete i (f t))
    (hip : ∀ t, (f t).ip = t.ip) (ha : i.accesses s = some (ea.toNat, w / 8))
    (heff : ∀ t, s.memWrite ea v = .ok t → Effect i s (f t))
    (hf : i.form ≠ .hlt ∧ i.form ≠ .ret ∧ i.form ≠ .jmpRel32) :
    ∃ t, exec i s = .next t ∧ Does i s t := by
  rcases s.store_cases ea v fun t => complete i (f t) with ⟨h, e'⟩ | ⟨t, h, e'⟩
  · exact ⟨_, e.trans e', .outOfRange _ _ ha h⟩
  · have hs : t.ip = s.ip := by
      rcases s.memWrite_cases ea v with ⟨_, e⟩ | ⟨_, e⟩ <;> rw [e] at h <;> cases h
      rfl
    exact ⟨_, e.trans (e'.trans (by rw [complete_eq, hip, hs])), .advances _ (heff t h) hf⟩

/-- The result of a meaning that only completes. -/
theorem does_of_complete (i : Instr) (u : State) (e : exec i s = complete i u) (hip : u.ip = s.ip)
    (heff : Effect i s u) (hf : i.form ≠ .hlt ∧ i.form ≠ .ret ∧ i.form ≠ .jmpRel32) :
    ∃ t, exec i s = .next t ∧ Does i s t :=
  ⟨_, e.trans (by rw [complete_eq, hip]), .advances u heff hf⟩

/-- The result of a branch. -/
theorem does_of_branch (i : Instr) (d : Int) (e : exec i s = branch i d s)
    (hd : i.displacement = some d) (heff : Effect i s s)
    (hf : i.form = .jmpRel32 ∨ ((i.form = .jeRel8 ∨ i.form = .jeRel32) ∧ s.eq = .set true)) :
    ∃ t, exec i s = .next t ∧ Does i s t := by
  rcases branch_cases i d s with ⟨ho, b⟩ | ⟨h0, h1, b⟩
  · exact ⟨_, e.trans b, .branchOut d hd hf ho⟩
  · exact ⟨_, e.trans b, .jumps _ heff hf h0 h1⟩

/-- The result of a JE. -/
theorem does_of_jumpIfEqual (i : Instr) (d : Int) (e : exec i s = jumpIfEqual i d s)
    (hd : i.displacement = some d) (heff : s.eq ≠ .unset → Effect i s s) (hf : i.form = .jeRel8 ∨ i.form = .jeRel32) :
    ∃ t, exec i s = .next t ∧ Does i s t := by
  rcases jumpIfEqual_cases i d s with ⟨h, b⟩ | ⟨h, b⟩ | ⟨h, b⟩
  · exact ⟨_, e.trans b, .eqUnset hf h⟩
  · exact does_of_branch i d (e.trans b) hd (heff (by simp [h])) (.inr ⟨hf, h⟩)
  · exact ⟨_, e.trans b, .advances s (heff (by simp [h])) (by rcases hf with hf | hf <;> simp [hf])⟩

/-- The inversion lemma of `exec`: every instruction has a next state, and `Does` says which. -/
theorem exec_does (i : Instr) (s : State) : ∃ t, exec i s = .next t ∧ Does i s t := by
  have plain : ∀ f : Form, f ≠ .hlt → f ≠ .ret → f ≠ .jmpRel32 →
      f ≠ .hlt ∧ f ≠ .ret ∧ f ≠ .jmpRel32 := fun _ h1 h2 h3 => ⟨h1, h2, h3⟩
  cases i with
  | movRmR pre w rm reg =>
    exact does_of_complete _ _ rfl (by simp) (.movRmR pre w rm reg s) (plain _ nofun nofun nofun)
  | movRImm pre w r imm =>
    exact does_of_complete _ _ rfl (by simp) (.movRImm pre w r imm s) (plain _ nofun nofun nofun)
  | movRmImm pre w rm imm =>
    exact does_of_complete _ _ rfl (by simp) (.movRmImm pre w rm imm s) (plain _ nofun nofun nofun)
  | movR8M8 pre reg mem =>
    exact does_of_load _ (s.ea mem) (fun v => s.writeReg reg.id v) rfl (by simp) rfl
      (.movR8M8 pre reg mem s) (plain _ nofun nofun nofun)
  | movM8R8 pre mem reg =>
    exact does_of_store _ (s.ea mem) (s.readReg reg.id) (fun t => t) rfl (by simp) rfl
      (.movM8R8 pre mem reg s) (plain _ nofun nofun nofun)
  | movR32M32 pre reg mem =>
    exact does_of_load _ (s.ea mem) (fun v => s.writeReg (reg32 reg) v) rfl (by simp) rfl
      (.movR32M32 pre reg mem s) (plain _ nofun nofun nofun)
  | movM32R32 pre mem reg =>
    exact does_of_store _ (s.ea mem) (s.readReg (reg32 reg)) (fun t => t) rfl (by simp) rfl
      (.movM32R32 pre mem reg s) (plain _ nofun nofun nofun)
  | movM32Imm32 pre mem imm =>
    exact does_of_store _ (s.ea mem) imm (fun t => t) rfl (by simp) rfl
      (.movM32Imm32 pre mem imm s) (plain _ nofun nofun nofun)
  | xorRmR pre w rm reg =>
    exact does_of_complete _ _ rfl (by simp) (.xorRmR pre w rm reg s) (plain _ nofun nofun nofun)
  | subRmImm8 pre w rm imm =>
    exact does_of_complete _ _ rfl (by simp) (.subRmImm8 pre w rm imm s) (plain _ nofun nofun nofun)
  | subRmImm32 pre w rm imm =>
    exact does_of_complete _ _ rfl (by simp) (.subRmImm32 pre w rm imm s)
      (plain _ nofun nofun nofun)
  | cmpM8Imm8 pre mem imm =>
    exact does_of_load _ (s.ea mem) (fun v => s.compareEq v imm) rfl (by simp) rfl
      (.cmpM8Imm8 pre mem imm s) (plain _ nofun nofun nofun)
  | pushR64 pre r =>
    exact does_of_store _ (s.readGpr rsp - 8) (s.readGpr r)
      (fun t => t.writeGpr rsp (s.readGpr rsp - 8)) rfl (by simp) rfl
      (.pushR64 pre r s) (plain _ nofun nofun nofun)
  | popR64 pre r =>
    exact does_of_load _ (s.readGpr rsp)
      (fun v => (s.writeGpr rsp (s.readGpr rsp + 8)).writeGpr r v) rfl (by simp) rfl
      (.popR64 pre r s) (plain _ nofun nofun nofun)
  | jeRel8 cb => exact does_of_jumpIfEqual _ (branchDisp cb) rfl rfl (.jeRel8 cb s) (.inl rfl)
  | jeRel32 cd => exact does_of_jumpIfEqual _ (branchDisp cd) rfl rfl (.jeRel32 cd s) (.inr rfl)
  | jmpRel32 cd => exact does_of_branch _ (branchDisp cd) rfl rfl (.jmpRel32 cd s) (.inl rfl)
  | endbr64 => exact does_of_complete _ _ rfl rfl (.endbr64 s) (plain _ nofun nofun nofun)
  | hlt => exact ⟨_, rfl, .halts rfl⟩
  | ret => exact ⟨_, rfl, .returns rfl⟩

/-- The inversion lemma in the form that proofs about a given next state use. -/
theorem does_of_exec {i : Instr} (h : exec i s = .next t) : Does i s t := by
  obtain ⟨u, e, hd⟩ := exec_does i s
  rw [e] at h
  cases h
  exact hd

/-- What an effect leaves alone whatever the instruction: `ip`, the latches, the status, the trace, the
bytes of the register file that no identifier names and the launch inputs. -/
theorem Effect.keeps {i : Instr} {u : State} (h : Effect i s u) :
    u.ip = s.ip ∧ u.rex = s.rex ∧ u.osz = s.osz ∧ u.run = s.run ∧ u.trace = s.trace ∧
      u.spare = s.spare ∧ u.code = s.code ∧ u.sinkAttached = s.sinkAttached ∧ u.params = s.params := by
  have store : ∀ {w : Nat} {ea : Word} {v : BitVec w} {t : State}, s.memWrite ea v = .ok t →
      t.ip = s.ip ∧ t.rex = s.rex ∧ t.osz = s.osz ∧ t.run = s.run ∧ t.trace = s.trace ∧
        t.spare = s.spare ∧ t.code = s.code ∧ t.sinkAttached = s.sinkAttached ∧ t.params = s.params := by
    intro w ea v t h
    rcases s.memWrite_cases ea v with ⟨_, e⟩ | ⟨_, e⟩ <;> rw [e] at h <;> cases h
    exact ⟨rfl, rfl, rfl, rfl, rfl, rfl, rfl, rfl, rfl⟩
  cases h with
  | movM8R8 => exact store ‹_›
  | movM32R32 => exact store ‹_›
  | movM32Imm32 => exact store ‹_›
  | pushR64 =>
    rename_i h
    simpa using store h
  | _ => simp

end Sys2Proof.Machine
end

