-- ==== Sys2Proof/Laws/PerInstr.lean ====
section
/-! SUPPORT. A law of each instruction as syntax: the bytes of its encoding are as many as its length
in the table of 30_encoding.md R96. -/

namespace Sys2Proof.Laws.EncodeLength

/-- The encoding of `i` has the length of the table. -/
def Statement (i : Instr) : Prop := (encode i).length = i.length

/-- The length of an encoding is the prefix count and the length of the body. -/
theorem length_encode (i : Instr) : (encode i).length = i.prefixes.count + i.body.length := by
  simp [encode, Prefixes.encode_length]

theorem movRmR (pre : Prefixes) (w : Width) (rm : RegNum) (reg : RegNum) : Statement (.movRmR pre w rm reg) := by
  rw [Statement, length_encode]
  simp [Instr.prefixes, Instr.body, Instr.length]

theorem movRImm (pre : Prefixes) (w : Width) (r : RegNum) (imm : BitVec 64) : Statement (.movRImm pre w r imm) := by
  rw [Statement, length_encode]
  simp [Instr.prefixes, Instr.body, Instr.length]
  omega

theorem movRmImm (pre : Prefixes) (w : Width) (rm : RegNum) (imm : BitVec 32) : Statement (.movRmImm pre w rm imm) := by
  rw [Statement, length_encode]
  simp [Instr.prefixes, Instr.body, Instr.length]
  omega

theorem movR8M8 (pre : Prefixes) (reg : Reg8) (mem : MemRef) : Statement (.movR8M8 pre reg mem) := by
  rw [Statement, length_encode]
  simp [Instr.prefixes, Instr.body, Instr.length]

theorem movM8R8 (pre : Prefixes) (mem : MemRef) (reg : Reg8) : Statement (.movM8R8 pre mem reg) := by
  rw [Statement, length_encode]
  simp [Instr.prefixes, Instr.body, Instr.length]

theorem movR32M32 (pre : Prefixes) (reg : RegNum) (mem : MemRef) : Statement (.movR32M32 pre reg mem) := by
  rw [Statement, length_encode]
  simp [Instr.prefixes, Instr.body, Instr.length]

theorem movM32R32 (pre : Prefixes) (mem : MemRef) (reg : RegNum) : Statement (.movM32R32 pre mem reg) := by
  rw [Statement, length_encode]
  simp [Instr.prefixes, Instr.body, Instr.length]

theorem movM32Imm32 (pre : Prefixes) (mem : MemRef) (imm : BitVec 32) : Statement (.movM32Imm32 pre mem imm) := by
  rw [Statement, length_encode]
  simp [Instr.prefixes, Instr.body, Instr.length]

theorem xorRmR (pre : Prefixes) (w : Width) (rm : RegNum) (reg : RegNum) : Statement (.xorRmR pre w rm reg) := by
  rw [Statement, length_encode]
  simp [Instr.prefixes, Instr.body, Instr.length]

theorem subRmImm8 (pre : Prefixes) (w : Width) (rm : RegNum) (imm : BitVec 8) : Statement (.subRmImm8 pre w rm imm) := by
  rw [Statement, length_encode]
  simp [Instr.prefixes, Instr.body, Instr.length]

theorem subRmImm32 (pre : Prefixes) (w : Width) (rm : RegNum) (imm : BitVec 32) : Statement (.subRmImm32 pre w rm imm) := by
  rw [Statement, length_encode]
  simp [Instr.prefixes, Instr.body, Instr.length]

theorem cmpM8Imm8 (pre : Prefixes) (mem : MemRef) (imm : BitVec 8) : Statement (.cmpM8Imm8 pre mem imm) := by
  rw [Statement, length_encode]
  simp [Instr.prefixes, Instr.body, Instr.length]

theorem pushR64 (pre : Prefixes) (r : RegNum) : Statement (.pushR64 pre r) := by
  rw [Statement, length_encode]
  simp [Instr.prefixes, Instr.body, Instr.length]

theorem popR64 (pre : Prefixes) (r : RegNum) : Statement (.popR64 pre r) := by
  rw [Statement, length_encode]
  simp [Instr.prefixes, Instr.body, Instr.length]

theorem jeRel8 (cb : BitVec 8) : Statement (.jeRel8 cb) := by
  rw [Statement, length_encode]
  simp [Instr.prefixes, Instr.body, Instr.length]

theorem jeRel32 (cd : BitVec 32) : Statement (.jeRel32 cd) := by
  rw [Statement, length_encode]
  simp [Instr.prefixes, Instr.body, Instr.length]

theorem jmpRel32 (cd : BitVec 32) : Statement (.jmpRel32 cd) := by
  rw [Statement, length_encode]
  simp [Instr.prefixes, Instr.body, Instr.length]

theorem endbr64 : Statement .endbr64 := by
  rw [Statement, length_encode]
  simp [Instr.prefixes, Instr.body, Instr.length]

theorem hlt : Statement .hlt := by
  rw [Statement, length_encode]
  simp [Instr.prefixes, Instr.body, Instr.length]

theorem ret : Statement .ret := by
  rw [Statement, length_encode]
  simp [Instr.prefixes, Instr.body, Instr.length]

end Sys2Proof.Laws.EncodeLength
end

