-- ==== Sys2Proof/Laws/Render.lean ====
section
/-! SUPPORT. The laws of the conventions of 00_scope.md R26: how a text splits into words, how a test of
its tails passes, and what the numbers, register names and memory operands of the reference rendering
(30_encoding.md R104) pass. -/

namespace Sys2Proof

/-! ### Words and tails -/


theorem words_ne_nil (t : List Char) : words t ≠ [] := by
  cases t with
  | nil => simp [words]
  | cons c cs =>
    simp only [words]
    split
    · split <;> simp
    · simp

/-- A character that is neither letter nor digit ends a word. -/
theorem words_append_cons (a b : List Char) (c : Char) (h : c.isAlphanum = false) :
    words (a ++ c :: b) = words a ++ words b := by
  induction a with
  | nil => simp [words, h]
  | cons d a ih =>
    simp only [List.cons_append, words, ih]
    by_cases hd : d.isAlphanum = true
    · simp only [hd, if_true]
      cases ha : words a with
      | nil => exact absurd ha (words_ne_nil a)
      | cons w ws => rfl
    · simp [hd]

/-- Letters and digits alone are one word. -/
theorem words_alphanum (t : List Char) (h : t.all Char.isAlphanum = true) : words t = [t] := by
  induction t with
  | nil => rfl
  | cons c t ih =>
    simp only [List.all_cons, Bool.and_eq_true] at h
    simp [words, h.1, ih h.2]

/-- Every letter of a word stands in the text. -/
theorem mem_of_mem_words {t w : List Char} {c : Char} (hw : w ∈ words t) (hc : c ∈ w) : c ∈ t := by
  induction t generalizing w with
  | nil => simp [words] at hw; subst hw; simp at hc
  | cons d t ih =>
    simp only [words] at hw
    split at hw
    · split at hw
      · rename_i e; exact absurd e (words_ne_nil t)
      · rename_i v ws e
        rcases List.mem_cons.mp hw with rfl | hw
        · rcases List.mem_cons.mp hc with rfl | hc
          · simp
          · exact List.mem_cons_of_mem _ (ih (by simp [e]) hc)
        · exact List.mem_cons_of_mem _ (ih (by simp [e, hw]) hc)
    · rcases List.mem_cons.mp hw with rfl | hw
      · simp at hc
      · exact List.mem_cons_of_mem _ (ih hw hc)

/-- A text without upper-case letters has no register name in upper case. -/
theorem namesLowerCase_of_map (t : List Char) (h : ∀ c ∈ t, c.toLower = c) :
    namesLowerCase t = true := by
  simp only [namesLowerCase, List.all_eq_true, Bool.or_eq_true]
  intro w hw
  right
  have : w.map Char.toLower = w :=
    (List.map_congr_left fun c hc => h c (mem_of_mem_words hw hc)).trans (List.map_id w)
  simp [this]

/-- A test that a tail passes is passed by some tail of every text that ends with it. -/
theorem anyTail_append (f : List Char → Bool) (a b : List Char) (h : f b = true) :
    anyTail f (a ++ b) = true := by
  induction a with
  | nil => cases b <;> simp [anyTail, h]
  | cons c a ih => simp [anyTail, ih]

/-! ### Numbers -/

theorem hexDigit_digitChar : ∀ n < 16, hexDigit (Nat.digitChar n) = some n := by decide

/-- Hexadecimal digits read in two parts. -/
theorem hexValue_append (v : Nat) (a b : List Char) :
    hexValue v (a ++ b) = (hexValue v a).bind fun u => hexValue u b := by
  induction a generalizing v with
  | nil => rfl
  | cons c a ih =>
    simp only [List.cons_append, hexValue]
    cases hexDigit c with
    | none => rfl
    | some d => exact ih _

/-- The digits of a number in base 16 have its value. -/
theorem hexValue_toDigits (n : Nat) : hexValue 0 (Nat.toDigits 16 n) = some n := by
  induction n using Nat.strongRecOn with
  | _ n ih =>
    by_cases h : n < 16
    · rw [Nat.toDigits_of_lt_base h]
      simp [hexValue, hexDigit_digitChar n h]
    · rw [Nat.toDigits_of_base_le (by decide) (by omega), hexValue_append, ih _ (by omega)]
      simp [hexValue, hexDigit_digitChar _ (Nat.mod_lt n (by decide : 0 < 16))]
      omega

theorem toDigits_ne_nil (b n : Nat) : Nat.toDigits b n ≠ [] := by
  have := @Nat.length_toDigits_pos b n
  intro h; simp [h] at this

/-- A digit of a number in base 16 or below is a letter or digit in lower case. -/
theorem mem_toDigits {b n : Nat} {c : Char} (hb : 1 < b) (hb' : b ≤ 16) (h : c ∈ Nat.toDigits b n) :
    c.isAlphanum = true ∧ c.toLower = c := by
  have digit : ∀ k < 16, (Nat.digitChar k).isAlphanum = true ∧
      (Nat.digitChar k).toLower = Nat.digitChar k := by decide
  induction n using Nat.strongRecOn with
  | _ n ih =>
    by_cases hn : n < b
    · rw [Nat.toDigits_of_lt_base hn] at h
      obtain rfl := List.mem_singleton.mp h
      exact digit n (by omega)
    · rw [Nat.toDigits_of_base_le hb (by omega)] at h
      rcases List.mem_append.mp h with h | h
      · exact ih _ (Nat.div_lt_self (by omega) hb) h
      · obtain rfl := List.mem_singleton.mp h
        exact digit _ (by have := Nat.mod_lt n (by omega : b > 0); omega)

/-- The hexadecimal text of a number is read as that number. -/
theorem isHexOf_hexNat (n : Nat) : isHexOf n (hexNat n).toList = true := by
  have e : (hexNat n).toList = '0' :: 'x' :: Nat.toDigits 16 n := by simp [hexNat]
  obtain ⟨c, cs, ec⟩ := List.exists_cons_of_ne_nil (toDigits_ne_nil 16 n)
  have h := hexValue_toDigits n
  rw [ec] at h
  simp [e, ec, isHexOf, h]

/-! ### Register names and memory operands -/

/-- A text of lower-case letters and digits: one word, without upper-case letters. -/
def PlainText (t : List Char) : Prop := ∀ c ∈ t, c.isAlphanum = true ∧ c.toLower = c

theorem PlainText.of_all (t : List Char)
    (h : (t.all fun c => c.isAlphanum && c.toLower == c) = true) : PlainText t := fun c hc => by
  simpa using List.all_eq_true.mp h c hc

theorem PlainText.words_eq {t : List Char} (h : PlainText t) : words t = [t] :=
  words_alphanum t (List.all_eq_true.mpr fun c hc => (h c hc).1)

theorem plainText_name64 (n : RegNum) : PlainText (name64 n).toList :=
  .of_all _ (by revert n; decide)

theorem plainText_name32 (n : RegNum) : PlainText (name32 n).toList :=
  .of_all _ (by revert n; decide)

theorem plainText_name16 (n : RegNum) : PlainText (name16 n).toList :=
  .of_all _ (by revert n; decide)

theorem plainText_widthName (w : Width) (n : RegNum) : PlainText (w.name n).toList := by
  cases w
  · exact plainText_name16 n
  · exact plainText_name32 n
  · exact plainText_name64 n

theorem plainText_reg8Name (r : Reg8) : PlainText r.name.toList := by
  cases r with
  | low n => exact .of_all _ (by revert n; decide)
  | high n => exact .of_all _ (by revert n; decide)

theorem plainText_toDigits {b : Nat} (n : Nat) (hb : 1 < b) (hb' : b ≤ 16) :
    PlainText (Nat.toDigits b n) := fun _ h => mem_toDigits hb hb' h

/-- The characters of a memory operand's text. -/
theorem MemRef.text_toList (m : MemRef) : m.text.toList =
    '[' :: ((name64 m.base).toList ++ ((if m.d8.toInt < 0 then '-' else '+') ::
      (Nat.toDigits 10 m.d8.toInt.natAbs ++ [']']))) := by
  have signed : ∀ i : Int, (signedNat i).toList =
      (if i < 0 then '-' else '+') :: Nat.toDigits 10 i.natAbs := by
    intro i
    unfold signedNat decNat
    split <;> simp
  simp [MemRef.text, signed]

/-- The reference text of a memory operand is `[base+disp]` or `[base-disp]`, whatever follows it. -/
theorem MemRef.beginsText_text (m : MemRef) (post : List Char) :
    m.beginsText (m.text.toList ++ post) = true := by
  simp only [MemRef.beginsText, List.any_eq_true]
  refine ⟨if m.d8.toInt < 0 then '-' else '+', by unfold signs; split_ifs <;> simp, ?_⟩
  generalize hs : (if m.d8.toInt < 0 then '-' else '+') = sign
  have e : m.text.toList ++ post = ('[' :: ((name64 m.base).toList ++ [sign])) ++
      (Nat.toDigits 10 m.d8.toInt.natAbs ++ ']' :: post) := by
    rw [MemRef.text_toList, hs]
    simp
  have digits : (Nat.toDigits 10 m.d8.toInt.natAbs ++ ']' :: post).takeWhile Char.isAlphanum =
      Nat.toDigits 10 m.d8.toInt.natAbs := by
    rw [List.takeWhile_append_of_pos fun c hc =>
      (mem_toDigits (by decide) (by decide) hc).1]
    simp [show Char.isAlphanum ']' = false from by decide]
  rw [e, List.take_left, List.drop_left, digits, List.drop_append, List.drop_eq_nil_of_le (by omega)]
  simp

end Sys2Proof
end

