-- ==== Sys2Proof/Tests/Slice0.lean ====
section
/-! SUPPORT. Tests of the model, each on one decode or one step, and the witnesses that the hypotheses
of the obligations can be met. Expected values come from spec/: the encodings of 30_encoding.md and
the vectors of 95_test_vectors.md, named in each test's comment. -/

namespace Sys2Proof.Tests

open Sys2Proof.Machine

/-! ### Helpers -/

/-- The reset state with a program. -/
def start (code : List Byte) : State := { State.reset with code := code }

/-- The same state with some registers set. -/
def withRegs (rs : List (RegNum × Word)) (s : State) : State :=
  rs.foldl (fun s r => s.writeGpr r.1 r.2) s

/-- The same state with some bytes of memory set. -/
def withBytes (cs : List (Nat × Byte)) (s : State) : State :=
  cs.foldl (fun s c => { s with mem := s.mem.writeByte c.1 c.2 }) s

/-- The same state with the 32-bit zero-extension on. -/
def withZext (s : State) : State := { s with params := { s.params with zext32 := true } }

/-- Something read off the next state, if there is one. -/
def look {α : Type} (f : State → α) : Host.Outcome State Fault Refusal → Option α
  | .next t => some (f t)
  | .fault _ => none
  | .refused _ => none

/-- Some bytes of memory, from an address up. -/
def bytes (a n : Nat) (s : State) : List Byte := s.mem.readBytes a n

/-- A state that faults on any access but those of one byte at 0 to 7. -/
def tiny : State := { State.reset with params := { State.reset.params with stackSize := 8 } }

/-! ### Well-formedness: each check accepts one term and refuses one (30_encoding.md R84 to R89, R95) -/

/-- REX.X is allowed by no row (R81, R95). -/
theorem test_wf_prefixRex :
    WellFormed (.endbr64) = true ∧
      WellFormed (.movRmR ⟨false, some 0b0010⟩ .w32 0 0) = false := by decide

/-- 0x66 is allowed on MOV and XOR, not on SUB (R95). -/
theorem test_wf_prefixOsz :
    WellFormed (.movRmR ⟨true, none⟩ .w16 0 1) = true ∧
      WellFormed (.subRmImm8 ⟨true, none⟩ .w16 0 1) = false := by decide

/-- The width is the one the prefixes select (R84). -/
theorem test_wf_width :
    WellFormed (.xorRmR ⟨false, some 0b1000⟩ .w64 0 0) = true ∧
      WellFormed (.xorRmR ⟨false, none⟩ .w64 0 0) = false := by decide

/-- Register numbers 8 and up need their REX bit (R85). -/
theorem test_wf_regBit :
    WellFormed (.movRmR ⟨false, some 0b0001⟩ .w32 8 0) = true ∧
      WellFormed (.movRmR ⟨false, none⟩ .w32 8 0) = false := by decide

/-- The ModRM.reg register has the extension bit REX.R (R85). -/
theorem test_wf_regField :
    WellFormed (.movR32M32 ⟨false, some 0b0100⟩ 9 ⟨5, 0⟩) = true ∧
      WellFormed (.movR32M32 ⟨false, some 0b0100⟩ 1 ⟨5, 0⟩) = false := by decide

/-- The register of a +r form has the extension bit REX.B (R85). -/
theorem test_wf_shortReg :
    WellFormed (.movRImm ⟨false, some 0b0001⟩ .w32 9 0) = true ∧
      WellFormed (.movRImm ⟨false, some 0b0001⟩ .w32 1 0) = false := by decide

/-- ah, ch, dh, bh exist without REX only (10_state.md R38). -/
theorem test_wf_highByte :
    WellFormed (.movR8M8 ⟨false, none⟩ (.high 0) ⟨5, 0⟩) = true ∧
      WellFormed (.movR8M8 ⟨false, some 0b0000⟩ (.high 0) ⟨5, 0⟩) = false := by decide

/-- spl, bpl, sil, dil exist with REX only (10_state.md R39). -/
theorem test_wf_lowByte :
    WellFormed (.movM8R8 ⟨false, some 0b0000⟩ ⟨5, 0⟩ (.low 4)) = true ∧
      WellFormed (.movM8R8 ⟨false, none⟩ ⟨5, 0⟩ (.low 4)) = false := by decide

/-- A base whose low bits are 100 needs a SIB byte (R86). -/
theorem test_wf_sib :
    WellFormed (.cmpM8Imm8 ⟨false, none⟩ ⟨5, 0⟩ 0) = true ∧
      WellFormed (.cmpM8Imm8 ⟨false, none⟩ ⟨4, 0⟩ 0) = false := by decide

/-- The base has the extension bit REX.B (R87). -/
theorem test_wf_base :
    WellFormed (.movM32Imm32 ⟨false, some 0b0001⟩ ⟨13, 0⟩ 0) = true ∧
      WellFormed (.movM32Imm32 ⟨false, none⟩ ⟨13, 0⟩ 0) = false := by decide

/-- The short form's immediate has w bits (R89). -/
theorem test_wf_shortImm :
    WellFormed (.movRImm ⟨true, none⟩ .w16 0 0xFFFF) = true ∧
      WellFormed (.movRImm ⟨true, none⟩ .w16 0 0x10000) = false := by decide

/-- The ModRM form's immediate has 16 bits at w = 16 (R89). -/
theorem test_wf_modRMImm :
    WellFormed (.movRmImm ⟨true, none⟩ .w16 0 0xFFFF) = true ∧
      WellFormed (.movRmImm ⟨true, none⟩ .w16 0 0x10000) = false := by decide

/-- PUSH and POP reach r8 to r15 with REX.B (R85). -/
theorem test_wf_push :
    WellFormed (.pushR64 ⟨false, some 0b0001⟩ 15) = true ∧
      WellFormed (.popR64 ⟨false, none⟩ 15) = false := by decide

/-- REX.W is refused on PUSH (R95, vector DEC-17). -/
theorem test_wf_pushW :
    WellFormed (.popR64 ⟨false, none⟩ 0) = true ∧
      WellFormed (.pushR64 ⟨false, some 0b1000⟩ 0) = false := by decide

/-- SUB's register has the extension bit REX.B (R85). -/
theorem test_wf_subDigit :
    WellFormed (.subRmImm32 ⟨false, some 0b1000⟩ .w64 4 0x100) = true ∧
      WellFormed (.subRmImm32 ⟨false, some 0b1000⟩ .w64 12 0x100) = false := by decide

/-! ### Decoding: one word per constructor, written out from the encodings of 30_encoding.md R94 -/

/-- `89 /r`, mod 11, reg 100, rm 101, REX.WRB. -/
theorem test_decode_movRmR :
    (decode [0b01001101, 0x89, 0b11100101]).toOption = some (.movRmR ⟨false, some 0b1101⟩ .w64 13 12, []) := by decide

/-- `B8+r iw`, r 001, under 0x66. -/
theorem test_decode_movRImm :
    (decode [0x66, 0b10111001, 0x34, 0x12]).toOption = some (.movRImm ⟨true, none⟩ .w16 1 0x1234, []) := by decide

/-- `C7 /0 id`, mod 11, rm 010, REX.W. -/
theorem test_decode_movRmImm :
    (decode [0x48, 0xC7, 0b11000010, 0xFE, 0xFF, 0xFF, 0xFF]).toOption = some (.movRmImm ⟨false, some 0b1000⟩ .w64 2 0xFFFFFFFE, []) := by decide

/-- `8A /r`, mod 01, reg 100 is ah, rm 101. -/
theorem test_decode_movR8M8 :
    (decode [0x8A, 0b01100101, 0xFF]).toOption = some (.movR8M8 ⟨false, none⟩ (.high 0) ⟨5, 0xFF⟩, []) := by decide

/-- `88 /r`, mod 01, reg 100 is spl under REX. -/
theorem test_decode_movM8R8 :
    (decode [0x40, 0x88, 0b01100101, 0xFF]).toOption = some (.movM8R8 ⟨false, some 0b0000⟩ ⟨5, 0xFF⟩ (.low 4), []) := by decide

/-- `8B /r`, mod 01, reg 001, rm 101. -/
theorem test_decode_movR32M32 :
    (decode [0x8B, 0b01001101, 0xFC]).toOption = some (.movR32M32 ⟨false, none⟩ 1 ⟨5, 0xFC⟩, []) := by decide

/-- `89 /r`, mod 01, reg 111 with REX.R. -/
theorem test_decode_movM32R32 :
    (decode [0x44, 0x89, 0b01111101, 0xF8]).toOption = some (.movM32R32 ⟨false, some 0b0100⟩ ⟨5, 0xF8⟩ 15, []) := by decide

/-- `C7 /0 id`, mod 01, rm 101, disp8, then the immediate. -/
theorem test_decode_movM32Imm32 :
    (decode [0xC7, 0b01000101, 0xFC, 0x44, 0x33, 0x22, 0x11]).toOption = some (.movM32Imm32 ⟨false, none⟩ ⟨5, 0xFC⟩ 0x11223344, []) := by decide

/-- `31 /r`, mod 11, reg 001, rm 000, under 0x66. -/
theorem test_decode_xorRmR :
    (decode [0x66, 0x31, 0b11001000]).toOption = some (.xorRmR ⟨true, none⟩ .w16 0 1, []) := by decide

/-- `83 /5 ib`, mod 11, rm 111, REX.WB. -/
theorem test_decode_subRmImm8 :
    (decode [0x49, 0x83, 0b11101111, 0x7F]).toOption = some (.subRmImm8 ⟨false, some 0b1001⟩ .w64 15 0x7F, []) := by decide

/-- `81 /5 id`, mod 11, rm 100, REX.W. -/
theorem test_decode_subRmImm32 :
    (decode [0x48, 0x81, 0b11101100, 0x00, 0x01, 0x00, 0x00]).toOption = some (.subRmImm32 ⟨false, some 0b1000⟩ .w64 4 0x100, []) := by decide

/-- `80 /7 ib`, mod 01, rm 111 with REX.B. -/
theorem test_decode_cmpM8Imm8 :
    (decode [0x41, 0x80, 0b01111111, 0x01, 0x05]).toOption = some (.cmpM8Imm8 ⟨false, some 0b0001⟩ ⟨15, 1⟩ 5, []) := by decide

/-- `50+r`, r 111 with REX.B. -/
theorem test_decode_pushR64 :
    (decode [0x41, 0b01010111]).toOption = some (.pushR64 ⟨false, some 0b0001⟩ 15, []) := by decide

/-- `58+r`, r 101. -/
theorem test_decode_popR64 :
    (decode [0b01011101]).toOption = some (.popR64 ⟨false, none⟩ 5, []) := by decide

/-- `74 cb`. -/
theorem test_decode_jeRel8 :
    (decode [0x74, 0xFA, 0xF4]).toOption = some (.jeRel8 0xFA, [0xF4]) := by decide

/-- `0F 84 cd`. -/
theorem test_decode_jeRel32 :
    (decode [0x0F, 0x84, 0x0A, 0x00, 0x00, 0x00]).toOption = some (.jeRel32 10, []) := by decide

/-- `E9 cd`. -/
theorem test_decode_jmpRel32 :
    (decode [0xE9, 0xEC, 0xFF, 0xFF, 0xFF]).toOption = some (.jmpRel32 0xFFFFFFEC, []) := by decide

/-- `F3 0F 1E FA`. -/
theorem test_decode_endbr64 :
    (decode [0xF3, 0x0F, 0x1E, 0xFA]).toOption = some (.endbr64, []) := by decide

/-- `F4`. -/
theorem test_decode_hlt :
    (decode [0xF4, 0x90]).toOption = some (.hlt, [0x90]) := by decide

/-- `C3`. -/
theorem test_decode_ret :
    (decode [0xC3]).toOption = some (.ret, []) := by decide

/-- Words of spec/opcode_table.json: the first byte is the most significant (log 12). -/
theorem test_decodeTableWord_rows :
    decodeTableWord 16 0x89C0 = some (.movRmR ⟨false, none⟩ .w32 0 0) ∧
      decodeTableWord 8 0x50 = some (.pushR64 ⟨false, none⟩ 0) ∧
      decodeTableWord 32 0xF30F1EFA = some .endbr64 := by decide

/-- The very next step after `withFetchWord` runs that instruction. -/
theorem test_withFetchWord_runs :
    look (fun t => (t.run, t.ip)) (step (State.reset.withFetchWord 8 0xC3)) =
      some (.returned, 0) := by decide

/-! ### Decode faults, with their order (60_exceptions.md R131, R134) -/

/-- DEC-1. -/
theorem test_decode_fault_empty :
    look (fun t => t.run) (step (start [])) = some (.faulted .truncated 0) := by decide

/-- DEC-10: the ModRM check precedes the prefix check. -/
theorem test_decode_fault_rexXAndMod :
    look (fun t => t.run) (step (start [0x4A, 0x89, 0x00])) = some (.faulted .unsupportedModRM 0) := by decide

/-- DEC-63: the prefix check precedes the displacement read. -/
theorem test_decode_fault_oszAndDisp :
    look (fun t => t.run) (step (start [0x66, 0x8B, 0x45])) = some (.faulted .unsupportedPrefix 0) := by decide

/-- 95_test_vectors.md L2.6: the opcode check precedes the prefix check. -/
theorem test_decode_fault_oszAndOpcode :
    look (fun t => t.run) (step (start [0x66, 0x90])) = some (.faulted .unsupportedOpcode 0) := by decide

/-- DEC-7. -/
theorem test_decode_fault_twoRex :
    look (fun t => t.run) (step (start [0x48, 0x48, 0x89, 0xC0])) = some (.faulted .unsupportedPrefix 0) := by decide

/-- DEC-58. -/
theorem test_decode_fault_cutEndbr :
    look (fun t => t.run) (step (start [0xF3, 0x0F, 0x1E])) = some (.faulted .truncated 0) := by decide

/-! ### One step of every instruction, with the values of 95_test_vectors.md -/

/-- RF-4. -/
theorem test_movRmR_w16 :
    look (fun t => (t.readGpr 0, t.ip))
        (step (withRegs [(0, 0xFFFFFFFFFFFFFFFF), (1, 0x1122334455667788)] (start [0x66, 0x89, 0xC8, 0xF4]))) =
      some (0xFFFFFFFFFFFF7788, 3) := by decide

/-- MOV-5. -/
theorem test_movRmR_zext :
    look (fun t => (t.readGpr 0, t.ip))
        (step (withZext (withRegs [(0, 0xFFFFFFFFFFFFFFFF)] (start [0x89, 0xC0, 0xF4])))) =
      some (0xFFFFFFFF, 2) := by decide

/-- MOV-7, and its line in L2.8. -/
theorem test_movRImm_w32 :
    look (fun t => (t.readGpr 0, t.ip, t.trace))
        (step (withRegs [(0, 0xFFFFFFFFFFFFFFFF)] (start [0xB8, 0x01, 0x00, 0x00, 0x00, 0xF4]))) =
      some (0xFFFFFFFF00000001, 5, ["mov eax, 0x1"]) := by decide

/-- MOV-9, on r15 as in MOV-10. -/
theorem test_movRImm_w64 :
    look (fun t => (t.readGpr 15, t.ip))
        (step (start [0x49, 0xBF, 0x88, 0x77, 0x66, 0x55, 0x44, 0x33, 0x22, 0x11, 0xF4])) =
      some (0x1122334455667788, 10) := by decide

/-- MOV-14. -/
theorem test_movRmImm_w64 :
    look (fun t => (t.readGpr 0, t.ip, t.trace))
        (step (start [0x48, 0xC7, 0xC0, 0x00, 0x00, 0x00, 0x80, 0xF4])) =
      some (0xFFFFFFFF80000000, 7, ["mov rax, -2147483648"]) := by decide

/-- MOV-17. -/
theorem test_movRmImm_w16 :
    look (fun t => (t.readGpr 0, t.ip))
        (step (withRegs [(0, 0xFFFFFFFFFFFFFFFF)] (start [0x66, 0xC7, 0xC0, 0x34, 0x12, 0xF4]))) =
      some (0xFFFFFFFFFFFF1234, 5) := by decide

/-- RF-6. -/
theorem test_movR8M8_high :
    look (fun t => (t.readGpr 0, t.readGpr 4, t.trace))
        (step (withBytes [(0xFFFFF, 0xAA)] (withRegs [(0, 0xFFFFFFFFFFFFFFFF)] (start [0x8A, 0x65, 0xFF, 0xF4])))) =
      some (0xFFFFFFFFFFFFAAFF, 0x100000, ["mov ah, [rbp-1]"]) := by decide

/-- RF-10. -/
theorem test_movR8M8_rex :
    look (fun t => (t.readGpr 0, t.readGpr 4, t.ip))
        (step (withBytes [(0xFFFFF, 0xAA)] (withRegs [(0, 0xFFFFFFFFFFFFFFFF)] (start [0x40, 0x8A, 0x65, 0xFF, 0xF4])))) =
      some (0xFFFFFFFFFFFFFFFF, 0x1000AA, 4) := by decide

/-- RF-13. -/
theorem test_movM8R8_high :
    look (fun t => (bytes 0xFFFFE 2 t, t.ip))
        (step (withRegs [(0, 0x1234)] (start [0x88, 0x65, 0xFF, 0xF4]))) =
      some ([0x00, 0x12], 3) := by decide

/-- RF-14, with another value in rsp. -/
theorem test_movM8R8_rex :
    look (fun t => (bytes 0xFFFFE 2 t, t.ip))
        (step (withRegs [(4, 0x34)] (start [0x40, 0x88, 0x65, 0xFF, 0xF4]))) =
      some ([0x00, 0x34], 4) := by decide

/-- MOV-25, with rax as in MOV-23. -/
theorem test_movR32M32_loads :
    look (fun t => (t.readGpr 0, t.ip))
        (step (withBytes [(0xFFFFB, 1), (0xFFFFC, 2), (0xFFFFD, 3), (0xFFFFE, 4)] (withRegs [(0, 0xFFFFFFFFFFFFFFFF)] (start [0x8B, 0x45, 0xFB, 0xF4])))) =
      some (0xFFFFFFFF04030201, 3) := by decide

/-- MOV-24. -/
theorem test_movR32M32_top :
    look (fun t => (t.readGpr 0, t.run))
        (step (start [0x8B, 0x45, 0xFD, 0xF4])) =
      some (0, .faulted .stackOutOfRange 0) := by decide

/-- MOV-27. -/
theorem test_movM32R32_stores :
    look (fun t => (bytes 0xFFFF7 6 t, t.trace))
        (step (withRegs [(15, 0x1122334455667788)] (start [0x44, 0x89, 0x7D, 0xF8, 0xF4]))) =
      some ([0, 0x88, 0x77, 0x66, 0x55, 0], ["mov [rbp-8], r15d"]) := by decide

/-- MOV-28. -/
theorem test_movM32R32_top :
    look (fun t => (bytes 0xFFFFC 4 t, t.ip, t.run))
        (step (withRegs [(0, 0x11223344)] (start [0x89, 0x45, 0xFD, 0xF4]))) =
      some ([0, 0, 0, 0], 0, .faulted .stackOutOfRange 0) := by decide

/-- MOV-30. -/
theorem test_movM32Imm32_stores :
    look (fun t => (bytes 0xFFFF8 4 t, t.ip))
        (step (start [0xC7, 0x45, 0xF8, 0x78, 0x56, 0x34, 0x12, 0xF4])) =
      some ([0x78, 0x56, 0x34, 0x12], 7) := by decide

/-- MOV-31. -/
theorem test_movM32Imm32_wraps :
    look (fun t => t.run)
        (step (start [0x41, 0xC7, 0x45, 0xFC, 0x01, 0x00, 0x00, 0x00, 0xF4])) =
      some (.faulted .stackOutOfRange 0) := by decide

/-- ALU-5. -/
theorem test_xorRmR_w64 :
    look (fun t => (t.readGpr 0, t.readGpr 1, t.eq))
        (step (withRegs [(0, 0xFFFFFFFFFFFFFFFF), (1, 0x1122334455667788)] (start [0x48, 0x31, 0xC8, 0xF4]))) =
      some (0xEEDDCCBBAA998877, 0x1122334455667788, .unset) := by decide

/-- ALU-2. -/
theorem test_xorRmR_w32 :
    look (fun t => (t.readGpr 0, t.ip))
        (step (withRegs [(0, 0xFFFFFFFFFFFFFFFF)] (start [0x31, 0xC0, 0xF4]))) =
      some (0xFFFFFFFF00000000, 2) := by decide

/-- ALU-12. -/
theorem test_subRmImm8_neg :
    look (fun t => (t.readGpr 0, t.ip, t.trace))
        (step (start [0x48, 0x83, 0xE8, 0x80, 0xF4])) =
      some (0x80, 4, ["sub rax, -128"]) := by decide

/-- ALU-9. -/
theorem test_subRmImm8_wraps :
    look (fun t => (t.readGpr 0, t.eq))
        (step (start [0x83, 0xE8, 0x01, 0xF4])) =
      some (0xFFFFFFFF, .unset) := by decide

/-- ALU-16. -/
theorem test_subRmImm32_w64 :
    look (fun t => (t.readGpr 0, t.ip))
        (step (start [0x48, 0x81, 0xE8, 0x00, 0x00, 0x00, 0x80, 0xF4])) =
      some (0x80000000, 7) := by decide

/-- ALU-15. -/
theorem test_subRmImm32_rsp :
    look (fun t => (t.readGpr 4, t.readGpr 5))
        (step (start [0x48, 0x81, 0xEC, 0x00, 0x01, 0x00, 0x00, 0xF4])) =
      some (0xFFF00, 0x100000) := by decide

/-- ALU-22. -/
theorem test_cmpM8Imm8_equal :
    look (fun t => (t.eq, t.ip, t.trace))
        (step (withBytes [(0x11, 0x05)] (withRegs [(15, 0x10)] (start [0x41, 0x80, 0x7F, 0x01, 0x05, 0xF4])))) =
      some (.set true, 5, ["cmp byte [r15+1], 5"]) := by decide

/-- ALU-19. -/
theorem test_cmpM8Imm8_differs :
    look (fun t => (t.eq, t.readGpr 5))
        (step (withBytes [(0xFFFFC, 0x01)] (start [0x80, 0x7D, 0xFC, 0x00, 0xF4]))) =
      some (.set false, 0x100000) := by decide

/-- MOV-33. -/
theorem test_pushR64_rsp :
    look (fun t => (t.readGpr 4, bytes 0xFFFF8 8 t))
        (step (start [0x54, 0xF4])) =
      some (0xFFFF8, [0, 0, 0x10, 0, 0, 0, 0, 0]) := by decide

/-- MOV-39. -/
theorem test_pushR64_lowest :
    look (fun t => (t.readGpr 4, bytes 0 8 t))
        (step (withRegs [(4, 8), (0, 0xAB)] (start [0x50, 0xF4]))) =
      some (0, [0xAB, 0, 0, 0, 0, 0, 0, 0]) := by decide

/-- MOV-34. -/
theorem test_popR64_rsp :
    look (fun t => (t.readGpr 4, t.ip))
        (step (withBytes [(0xFFFF8, 0x34), (0xFFFF9, 0x12)] (withRegs [(4, 0xFFFF8)] (start [0x5C, 0xF4])))) =
      some (0x1234, 1) := by decide

/-- MOV-37. -/
theorem test_popR64_empty :
    look (fun t => (t.readGpr 4, t.run))
        (step (start [0x58, 0xF4])) =
      some (0x100000, .faulted .stackOutOfRange 0) := by decide

/-- The JE of CTL-4. -/
theorem test_jeRel8_taken :
    look (fun t => (t.ip, t.eq))
        (step ({ start [0x80, 0x7D, 0xFF, 0x00, 0x74, 0xFA, 0xF4] with eq := .set true, ip := 4 })) =
      some (0, .set true) := by decide

/-- The JE of CTL-5. -/
theorem test_jeRel8_out :
    look (fun t => (t.ip, t.run))
        (step ({ start [0x80, 0x7D, 0xFF, 0x00, 0x74, 0xF9, 0xF4] with eq := .set true, ip := 4 })) =
      some (4, .faulted .branchOutOfRange 4) := by decide

/-- CTL-8 in the near form: the target is not checked. -/
theorem test_jeRel32_notTaken :
    look (fun t => (t.ip, t.run))
        (step ({ start [0x80, 0x7D, 0xFF, 0x00, 0x0F, 0x84, 0x00, 0x00, 0x00, 0x80, 0xF4] with eq := .set false, ip := 4 })) =
      some (10, .running) := by decide

/-- 95_test_vectors.md L2.6. -/
theorem test_jeRel32_unset :
    look (fun t => (t.ip, t.run))
        (step (start [0x0F, 0x84, 0x00, 0x00, 0x00, 0x80])) =
      some (0, .faulted .eqUnset 0) := by decide

/-- CTL-13; the text by 30_encoding.md R104. -/
theorem test_jmpRel32_back :
    look (fun t => (t.ip, t.run, t.trace))
        (step (start [0xE9, 0xFB, 0xFF, 0xFF, 0xFF])) =
      some (0, .running, ["jmp near $+0"]) := by decide

/-- CTL-14. -/
theorem test_jmpRel32_out :
    look (fun t => (t.ip, t.run, t.trace))
        (step (start [0xE9, 0xFA, 0xFF, 0xFF, 0xFF])) =
      some (0, .faulted .branchOutOfRange 0, []) := by decide

/-- CTL-15. -/
theorem test_endbr64_advances :
    look (fun t => (t.ip, t.run, t.trace))
        (step (start [0xF3, 0x0F, 0x1E, 0xFA, 0xF4])) =
      some (4, .running, ["endbr64"]) := by decide

/-- CTL-16. -/
theorem test_hlt_halts :
    look (fun t => (t.ip, t.run, t.trace))
        (step (start [0xF4])) =
      some (0, .halted, ["hlt"]) := by decide

/-- CTL-17. -/
theorem test_ret_popsNothing :
    look (fun t => (t.readGpr 4, t.run, t.trace))
        (step (start [0xC3])) =
      some (0x100000, .returned, ["ret"]) := by decide

/-- A terminal state has no next step (10_state.md R50). -/
theorem test_ended_run_stops :
    step { start [0xF4] with run := .halted } = .fault (.runEnded .halted) := rfl

/-! ### Witnesses: the hypotheses of each obligation met together, at the boundary of each clause -/

/-- Witness for Obligations.DecodeOfEncodeIsTheInstruction. -/
theorem witness_DecodeOfEncodeIsTheInstruction :
    WellFormed (.movRImm ⟨true, some 0b1001⟩ .w64 15 0xFFFFFFFFFFFFFFFF) = true ∧
      WellFormed (.movR8M8 ⟨false, none⟩ (.high 3) ⟨7, 0x80⟩) = true := by decide

/-- Witness for Obligations.EncodeOfDecodeIsTheBytesRead. -/
theorem witness_EncodeOfDecodeIsTheBytesRead :
    (decode [0x66, 0x49, 0xBF, 1, 0, 0, 0, 0, 0, 0, 0, 0xF4]).toOption =
      some (.movRImm ⟨true, some 0b1001⟩ .w64 15 1, [0xF4]) := by decide

/-- Witness for Obligations.DecodedLengthIsTheTables. -/
theorem witness_DecodedLengthIsTheTables :
    (decode [0x66, 0x49, 0xBF, 1, 0, 0, 0, 0, 0, 0, 0, 0xF4]).toOption =
      some (.movRImm ⟨true, some 0b1001⟩ .w64 15 1, [0xF4]) := by decide

/-- Witness for Obligations.DecodeRaisesOnlyDecodeFaults. -/
theorem witness_DecodeRaisesOnlyDecodeFaults :
    (decodeAt [0x90] 0 = .error .unsupportedOpcode) ∧ (decodeAt [] 0 = .error .truncated) ∧
      (decodeAt [0x4A, 0x89, 0xC0] 0 = .error .unsupportedPrefix) ∧
      (decodeAt [0x89, 0x00] 0 = .error .unsupportedModRM) ∧
      (decodeAt [0x90, 0xF4] 1 = .ok (.hlt, [])) := ⟨rfl, rfl, rfl, rfl, rfl⟩

/-- Witness for Obligations.CutOffInstructionIsTruncated. -/
theorem witness_CutOffInstructionIsTruncated :
    WellFormed (.jeRel32 7) = true ∧ 0 < (encode (.jeRel32 7)).length ∧
      5 < (encode (.jeRel32 7)).length ∧
      ((-1 : Int) < 0 ∨ (([0xF4] : List Byte).length : Int) ≤ -1) ∧
      ((1 : Int) < 0 ∨ (([0xF4] : List Byte).length : Int) ≤ 1) := by decide

/-- Witness for Obligations.PrefixAllowanceTable. -/
theorem witness_PrefixAllowanceTable :
    (decode [0x41, 0x50]).toOption = some (.pushR64 ⟨false, some 1⟩ 8, []) ∧
      Instr.operandsOk .ret = true ∧ ¬ Form.ret.takes ⟨true, none⟩ ∧ Form.ret.takes ⟨false, none⟩ ∧
      (Instr.pushR64 ⟨false, none⟩ 0).operandsOk = true ∧ ¬ Form.pushR64.takes ⟨false, some 0b0010⟩ ∧
      Form.pushR64.takes ⟨false, some 0b0001⟩ ∧
      (Instr.movRImm ⟨false, none⟩ .w32 0 1).operandsOk = true ∧
      Form.movRImm.takes ⟨true, some 0b1001⟩ ∧ 8 ≤ (List.replicate 8 0x90#8).length := by
  simp only [Form.takes]
  decide

/-- Witness for Obligations.UnlistedModRMIsRefused. -/
theorem witness_UnlistedModRMIsRefused :
    ([0x89#8, 0xC7#8, 0x83#8, 0x80#8, 0x31#8, 0x8A#8].all fun op =>
      op ∈ [0x88#8, 0x89#8, 0x8A#8, 0x8B#8, 0xC7#8, 0x31#8, 0x83#8, 0x81#8, 0x80#8]) = true ∧
      (0#2 = 0 ∧ 2#2 = 2 ∧ (1#2 = 1 ∧ 4#3 = 4)) ∧ (0xC7#8 = 0xC7 ∧ 1#3 ≠ 0) ∧
      ((0x83#8 = 0x83 ∨ 0x83#8 = 0x81) ∧ 4#3 ≠ 5) ∧ (0x80#8 = 0x80 ∧ 6#3 ≠ 7) ∧
      (0x31#8 ∈ [0x31#8, 0x83#8, 0x81#8] ∧ 1#2 ≠ 3) ∧
      (0x8A#8 ∈ [0x88#8, 0x8A#8, 0x8B#8, 0x80#8] ∧ 3#2 ≠ 1) := by decide

/-- Witness for Obligations.UnlistedOpcodeIsRefused, on both sides of each range of opcodes. -/
theorem witness_UnlistedOpcodeIsRefused :
    ([0x3F#8, 0x60#8, 0xB7#8, 0xC0#8, 0x90#8].all fun b =>
      b ∉ [0x88#8, 0x89#8, 0x8A#8, 0x8B#8, 0xC7#8, 0x31#8, 0x83#8, 0x81#8, 0x80#8, 0x74#8, 0xE9#8,
        0x0F#8, 0xF3#8, 0xF4#8, 0xC3#8] && !(0x50 ≤ b.toNat && b.toNat ≤ 0x5F) &&
      !(0xB8 ≤ b.toNat && b.toNat ≤ 0xBF) && b != 0x66 && !(0x40 ≤ b.toNat && b.toNat ≤ 0x4F)) = true ∧
      0x85#8 ≠ 0x84 ∧ 0x90#8 ≠ 0x0F ∧ 0x1F#8 ≠ 0x1E ∧ 0xFB#8 ≠ 0xFA := by decide

/-- Witness for Obligations.WidthFollowsPrecedence. -/
theorem witness_WidthFollowsPrecedence :
    (decode [0x66, 0x48, 0x89, 0xC8]).toOption = some (.movRmR ⟨true, some 8⟩ .w64 0 1, []) ∧
      (decode [0x80, 0x7D, 0xFC, 0]).toOption = some (.cmpM8Imm8 ⟨false, none⟩ ⟨5, 0xFC⟩ 0, []) ∧
      (decode [0x58]).toOption = some (.popR64 ⟨false, none⟩ 0, []) ∧
      Form.movRmR ∈ [Form.movRmR, .movRImm, .movRmImm, .xorRmR, .subRmImm8, .subRmImm32] ∧
      Form.cmpM8Imm8 ∈ [Form.movR8M8, .movM8R8, .cmpM8Imm8] ∧
      Form.popR64 ∈ [Form.pushR64, .popR64] := by decide

/-- Witness for Obligations.ByteRegisterMappingDependsOnRex. -/
theorem witness_ByteRegisterMappingDependsOnRex :
    (3#3).toNat < 4 ∧ 4 ≤ (4#3).toNat := by decide

/-- Witness for Obligations.ZeroRexHasNoEffect. -/
theorem witness_ZeroRexHasNoEffect :
    WellFormed (.movRmR ⟨false, none⟩ .w32 0 1) = true ∧
      (Instr.movRmR ⟨false, none⟩ .w32 0 1).prefixes.rex = none ∧
      Form.movRmR.allowance.rex = true ∧ Form.movRmR ≠ .movR8M8 ∧ Form.movRmR ≠ .movM8R8 ∧
      State.reset.run = .running ∧ State.reset.params.renderer = .reference ∧
      (look (fun t => t.run) (exec (.movRmR ⟨false, none⟩ .w32 0 1) State.reset)).isSome = true := by decide

/-- Witness for Obligations.RegisterReadGivesView. -/
theorem witness_RegisterReadGivesView :
    0 < 8 ∧ 7 < 8 ∧ 63 < 64 := by decide

/-- Witness for Obligations.RegisterWriteReplacesView. -/
theorem witness_RegisterWriteReplacesView :
    (8 = 8 ∧ (Reg8.high 3).id.offset ≤ 1) ∧ (8 = 8 ∧ (Reg8.low 15).id.offset ≤ 1) ∧
      ((32 = 16 ∨ 32 = 32 ∨ 32 = 64) ∧ (reg32 15).offset = 0) ∧
      ((Width.w16.bits = 16 ∨ Width.w16.bits = 32 ∨ Width.w16.bits = 64) ∧
        (Width.w16.reg 4).offset = 0) ∧
      ((Width.w64.bits = 16 ∨ Width.w64.bits = 32 ∨ Width.w64.bits = 64) ∧
        (Width.w64.reg 4).offset = 0) := by decide

/-- Witness for Obligations.MemReadIsLittleEndian. -/
theorem witness_MemReadIsLittleEndian :
    (0xFFFF8#64).toNat + 64 / 8 ≤ State.reset.params.stackSize ∧
      State.reset.params.stackSize < (0xFFFF9#64).toNat + 64 / 8 ∧
      (0xFFFFF#64).toNat + 8 / 8 ≤ State.reset.params.stackSize ∧
      State.reset.params.stackSize < (0xFFFFFFFFFFFFFFFF#64).toNat + 8 / 8 := by decide

/-- Witness for Obligations.MemWriteIsLittleEndian. -/
theorem witness_MemWriteIsLittleEndian :
    State.reset.mem.wf = true ∧ (0xFFFFC#64).toNat + 32 / 8 ≤ State.reset.params.stackSize ∧
      State.reset.params.stackSize < (0xFFFFD#64).toNat + 32 / 8 := by decide

/-- Witness for Obligations.ReadAfterWriteGivesTheBytes. -/
theorem witness_ReadAfterWriteGivesTheBytes :
    State.reset.mem.wf = true ∧ (∃ t, State.reset.memWrite 0xFFFF8 (0x0102030405060708#64) = .ok t) ∧
      7 < 64 / 8 ∧ (0xFFFFF#64).toNat = (0xFFFF8#64).toNat + 7 := ⟨rfl, ⟨_, rfl⟩, by decide, rfl⟩

/-- Witness for Obligations.LoadWritesMemoryValue. -/
theorem witness_LoadWritesMemoryValue :
    (State.reset.ea ⟨5, 0xFF⟩).toNat + 1 ≤ State.reset.params.stackSize ∧
      (State.reset.ea ⟨5, 0xFC⟩).toNat + 4 ≤ State.reset.params.stackSize := by decide

/-- Witness for Obligations.StoreWritesMemoryBytes. -/
theorem witness_StoreWritesMemoryBytes :
    State.reset.mem.wf = true ∧
      (State.reset.ea ⟨5, 0xFF⟩).toNat + 1 ≤ State.reset.params.stackSize ∧
      (State.reset.ea ⟨5, 0xFC⟩).toNat + 4 ≤ State.reset.params.stackSize := by decide

/-- Witness for Obligations.CompareSetsEqualityLatch. -/
theorem witness_CompareSetsEqualityLatch :
    (State.reset.ea ⟨0, 0⟩).toNat + 1 ≤ State.reset.params.stackSize ∧
      (State.reset.ea ⟨5, 0xFF⟩).toNat + 1 ≤ State.reset.params.stackSize := by decide

/-- Witness for Obligations.PushStoresRegister. -/
theorem witness_PushStoresRegister :
    State.reset.mem.wf = true ∧
      (State.reset.readGpr 4 - 8).toNat + 8 ≤ State.reset.params.stackSize := by decide

/-- Witness for Obligations.PushThenPopRestoresRegisters. -/
theorem witness_PushThenPopRestoresRegisters :
    State.reset.mem.wf = true ∧
      (State.reset.readGpr 4 - 8).toNat + 8 ≤ State.reset.params.stackSize := by decide

/-- Witness for Obligations.PopLoadsRegister. -/
theorem witness_PopLoadsRegister :
    ((withRegs [(4, 0xFFFF8)] State.reset).readGpr 4).toNat + 8 ≤
      (withRegs [(4, 0xFFFF8)] State.reset).params.stackSize ∧ (3 : RegNum) ≠ 4 := by decide

/-- Witness for Obligations.OutOfRangeAccessFaults. -/
theorem witness_OutOfRangeAccessFaults :
    (Instr.popR64 ⟨false, none⟩ 0).accesses State.reset = some (0x100000, 8) ∧
      State.reset.params.stackSize < 0x100000 + 8 ∧
      (Instr.movR8M8 ⟨false, none⟩ (.low 0) ⟨5, 0⟩).accesses State.reset = some (0x100000, 1) ∧
      State.reset.params.stackSize < 0x100000 + 1 ∧
      (Instr.movM32R32 ⟨false, none⟩ ⟨4, 0⟩ 0).accesses tiny = some (0x100000, 4) ∧
      tiny.params.stackSize < 0x100000 + 4 ∧
      Instr.endbr64.accesses State.reset = none ∧
      (Instr.movRmR ⟨false, none⟩ .w32 0 1).accesses State.reset = none := by decide

/-- Witness for Obligations.JumpIfEqualReadsLatch: both forms, each value of the latch, a target at 0, one below 0 and one beyond the end. -/
theorem witness_JumpIfEqualReadsLatch :
    (∃ cb : BitVec 8, Instr.jeRel8 0xFE = .jeRel8 cb ∧ (2 : Int) = 2 ∧ (-2 : Int) = cb.toInt) ∧
      (∃ cd : BitVec 32, Instr.jeRel32 1 = .jeRel32 cd ∧ (6 : Int) = 6 ∧ (1 : Int) = cd.toInt) ∧
      State.reset.eq = .unset ∧ ({ State.reset with eq := .set false } : State).eq = .set false ∧
      ({ State.reset with eq := .set true } : State).eq = .set true ∧
      (0 ≤ (0 : Int) + 2 + -2 ∧ (0 : Int) + 2 + -2 ≤ (start []).code.length) ∧
      ((0 : Int) + 2 + -3 < 0 ∨ ((start []).code.length : Int) < 0 + 2 + -3) ∧
      ((0 : Int) + 6 + 1 < 0 ∨ ((start [0, 0]).code.length : Int) < 0 + 6 + 1) := ⟨⟨_, rfl, rfl, rfl⟩, ⟨_, rfl, rfl, rfl⟩, rfl, rfl, rfl, by decide, by decide, by decide⟩

/-- Witness for Obligations.JumpGoesToTarget: targets at 0, at the end, below 0, beyond the end. -/
theorem witness_JumpGoesToTarget :
    (0 ≤ (start []).ip + 5 + (0xFFFFFFFB#32).toInt ∧
        (start []).ip + 5 + (0xFFFFFFFB#32).toInt ≤ (start []).code.length) ∧
      (0 ≤ (start [0, 0, 0, 0, 0]).ip + 5 + (0#32).toInt ∧
        (start [0, 0, 0, 0, 0]).ip + 5 + (0#32).toInt ≤ (start [0, 0, 0, 0, 0]).code.length) ∧
      ((start []).ip + 5 + (0xFFFFFFFA#32).toInt < 0) ∧
      (((start [0, 0, 0, 0]).code.length : Int) < (start []).ip + 5 + (0#32).toInt) := by decide

/-- Witness for Obligations.LaunchGivesResetValues. -/
theorem witness_LaunchGivesResetValues :
    16 ≤ Launch.reference.params.numSlots ∧ 8 ≤ Launch.reference.params.slotBytes ∧
      Launch.reference.code.length ≤ Launch.reference.params.codeMax ∧
      (let l : Launch := { Launch.reference with params := ⟨17, 9, 0, 0, true, .other 0⟩, spareInit := [1] }
      16 ≤ l.params.numSlots ∧ 8 ≤ l.params.slotBytes ∧ l.code.length ≤ l.params.codeMax ∧
        look (fun s => s.spare.take 2) (launch l) = some [1, 0]) := by decide

/-- Witness for Obligations.LaunchRefusesOnlyLongCode. -/
theorem witness_LaunchRefusesOnlyLongCode :
    16 ≤ Launch.reference.params.numSlots ∧ 8 ≤ Launch.reference.params.slotBytes ∧
      Launch.reference.code = [] ∧
      (let l : Launch := { Launch.reference with code := [0xF4], params := ⟨16, 8, 0, 0, true, .other 0⟩ }
      16 ≤ l.params.numSlots ∧ 8 ≤ l.params.slotBytes ∧ l.params.codeMax < l.code.length) ∧
      (Params.mk 15 8 0 0 true .reference).numSlots < 16 ∧
      (Params.mk 16 7 0 0 true .reference).slotBytes < 8 := by decide

/-- Witness for Obligations.StepRunsDecodedInstruction. -/
theorem witness_StepRunsDecodedInstruction :
    (start [0xF4]).run = .running ∧ decodeAt (start [0xF4]).code (start [0xF4]).ip = .ok (.hlt, []) ∧
      decodeAt (start []).code (start []).ip = .error .truncated ∧
      ({ start [] with run := .returned } : State).run ≠ .running := ⟨rfl, rfl, rfl, by decide⟩

/-- Witness for Obligations.StepOutcomeIsOneOfTheFour. -/
theorem witness_StepOutcomeIsOneOfTheFour :
    (start [0xF4]).run = .running ∧ ({ start [] with run := .halted } : State).run ≠ .running := by decide

/-- Witness for Obligations.StepKeepsBoundaryInvariant. -/
theorem witness_StepKeepsBoundaryInvariant :
    Inv (start [0x55, 0xF4]) ∧ ∃ t, step (start [0x55, 0xF4]) = .next t := ⟨⟨rfl, rfl, fun _ => by decide⟩, ⟨_, rfl⟩⟩

/-- Witness for Obligations.StepKeepsMemoryInvariant. -/
theorem witness_StepKeepsMemoryInvariant :
    MemInv (start [0x55, 0xF4]) ∧ ∃ t, step (start [0x55, 0xF4]) = .next t := ⟨⟨rfl, nofun⟩, ⟨_, rfl⟩⟩

/-- Witness for Obligations.LaunchMeetsInvariants. -/
theorem witness_LaunchMeetsInvariants :
    (∃ s, launch { Launch.reference with stackInit := [(0xFFFFF, 1)] } = .next s) ∧
      Memory.wf [(0xFFFFF, 1)] = true ∧
      ∀ c ∈ ([(0xFFFFF, 1)] : Memory), c.1 < Launch.reference.params.stackSize := ⟨⟨_, rfl⟩, by decide, by decide⟩

/-- Witness for Obligations.FaultChangesOnlyRunStatus. -/
theorem witness_FaultChangesOnlyRunStatus :
    (start [0x58]).run = .running ∧
      look (fun t => t.run) (step (start [0x58])) = some (.faulted .stackOutOfRange 0) := by decide

/-- Witness for Obligations.ExecuteFaultsHaveTheirCauses. -/
theorem witness_ExecuteFaultsHaveTheirCauses :
    State.reset.run = .running ∧
      look (fun t => t.run) (exec (.popR64 ⟨false, none⟩ 0) State.reset) =
        some (.faulted .stackOutOfRange 0) ∧
      look (fun t => t.run) (exec (.jmpRel32 0x80000000) State.reset) =
        some (.faulted .branchOutOfRange 0) ∧
      look (fun t => t.run) (exec (.jeRel8 0xFD) { State.reset with eq := .set true }) =
        some (.faulted .branchOutOfRange 0) ∧
      look (fun t => t.run) (exec (.jeRel8 0) State.reset) = some (.faulted .eqUnset 0) := by decide

/-- Witness for Obligations.OnlyTerminatorsEndNormally. -/
theorem witness_OnlyTerminatorsEndNormally :
    (start [0xF4]).run = .running ∧
      look (fun t => t.run) (step (start [0xF4])) = some .halted ∧
      look (fun t => t.run) (step (start [0xC3])) = some .returned := by decide

/-- Witness for Obligations.EqualityLatchWriters. -/
theorem witness_EqualityLatchWriters :
    State.reset.run = .running ∧
      look (fun t => t.eq) (exec (.xorRmR ⟨false, none⟩ .w32 0 0) { State.reset with eq := .set true }) =
        some .unset ∧
      look (fun t => (t.run, t.eq)) (exec (.cmpM8Imm8 ⟨false, none⟩ ⟨0, 0⟩ 0) State.reset) =
        some (.running, .set true) ∧
      look (fun t => t.eq) (exec .endbr64 { State.reset with eq := .set true }) = some (.set true) ∧
      Form.xorRmR ∈ [Form.xorRmR, .subRmImm8, .subRmImm32] ∧
      Form.endbr64 ∉ [Form.xorRmR, .subRmImm8, .subRmImm32, .cmpM8Imm8] := by decide

/-- Witness for Obligations.NonBranchingAdvancesByLength. -/
theorem witness_NonBranchingAdvancesByLength :
    Form.endbr64 ∉ [Form.jeRel8, .jeRel32, .jmpRel32, .hlt, .ret] ∧ State.reset.run = .running ∧
      look (fun t => t.run) (exec .endbr64 State.reset) = some .running ∧
      ((start []).code.length : Int) ≤ (start []).ip := by decide

/-- Witness for Obligations.OnlyDestinationRegistersChange. -/
theorem witness_OnlyDestinationRegistersChange :
    (look (fun t => t.run) (exec (.pushR64 ⟨false, none⟩ 0) State.reset)).isSome = true := by decide

/-- Witness for Obligations.OnlyStoredBytesChange. -/
theorem witness_OnlyStoredBytesChange :
    State.reset.mem.wf = true ∧
      look (fun t => t.mem.readByte 0xFFFFF) (exec (.movM8R8 ⟨false, none⟩ ⟨5, 0xFF⟩ (.low 0))
        (withRegs [(0, 1)] State.reset)) = some 1 ∧
      (1 : Byte) ≠ State.reset.mem.readByte 0xFFFFF := by decide

/-- Witness for Obligations.InstructionsDoNotTouchCode. -/
theorem witness_InstructionsDoNotTouchCode :
    ([0x90, 0x90] : List Byte).length = (start [0xF4, 0xF4]).code.length ∧
      (look (fun t => t.run) (exec (.jmpRel32 0xFFFFFFFC) (start [0xF4, 0xF4]))).isSome = true := by decide

/-- Witness for Obligations.TraceIsOutputOnly. -/
theorem witness_TraceIsOutputOnly :
    (start [0xC3]).run = .running ∧ look (fun t => t.run) (step (start [0xC3])) = some .returned ∧
      look (fun t => t.run) (step (start [])) = some (.faulted .truncated 0) := by decide

/-- Witness for Obligations.PrefixLatchesCarryNothing. -/
theorem witness_PrefixLatchesCarryNothing :
    look (fun t => (t.rex, t.osz)) (step (start [0x66, 0x49, 0x89, 0xC0])) = some (none, false) := by decide

/-- Witness for Obligations.ZextActsOnlyOn32BitRegisterWrites. -/
theorem witness_ZextActsOnlyOn32BitRegisterWrites :
    Instr.writesReg32 (.movRmR ⟨true, none⟩ .w16 0 1) = false ∧
      Instr.writesReg32 (.movM32R32 ⟨false, none⟩ ⟨5, 0xFC⟩ 0) = false ∧
      Instr.writesReg32 (.movRmR ⟨false, none⟩ .w32 0 1) = true := by decide

/-- Witness for Obligations.XorWritesExclusiveOr. -/
theorem witness_XorWritesExclusiveOr :
    (3 : RegNum) = 3 := by decide

/-- Witness for Obligations.ResetIsReferenceLaunch. -/
theorem witness_ResetIsReferenceLaunch :
    (0 : RegNum) ≠ 4 ∧ (0 : RegNum) ≠ 5 ∧ (15 : RegNum) ≠ 4 ∧ (15 : RegNum) ≠ 5 := by decide

/-- What Obligations.EveryLineKeepsToTheConventions asks of a line, on lines that keep to R26 and lines that do not. -/
theorem witness_EveryLineKeepsToTheConventions :
    (Instr.movRImm ⟨false, none⟩ .w32 0 31).conventions "mov eax, 0x1f" = true ∧
      (Instr.movRImm ⟨false, none⟩ .w32 0 31).conventions "MOV eax, 0x001F" = true ∧
      (Instr.movRImm ⟨false, none⟩ .w32 0 31).conventions "mov eax, 31" = false ∧
      (Instr.movRImm ⟨false, none⟩ .w32 0 31).conventions "mov eax, 0x1e" = false ∧
      (Instr.pushR64 ⟨false, none⟩ 5).conventions "push RBP" = false ∧
      (Instr.cmpM8Imm8 ⟨false, none⟩ ⟨5, 0xFC⟩ 0).conventions "cmp byte [rbp-4], 0" = true ∧
      (Instr.cmpM8Imm8 ⟨false, none⟩ ⟨5, 0xFC⟩ 0).conventions "cmp byte [rbp+4], 0" = false ∧
      (Instr.cmpM8Imm8 ⟨false, none⟩ ⟨5, 0xFC⟩ 0).conventions "cmp byte -4[rbp], 0" = false := by decide

end Sys2Proof.Tests
end

section
/-! PROOFS. What a step does, as equations and an inversion lemma over what stands at `ip`; the
parts of the state that no meaning reads; and the trace port as one of them (00_scope.md R16). -/

namespace Sys2Proof.Machine

variable {s t : State}

/-! ### The step over what decodes at `ip` (70_reset_and_hazards.md R149) -/

theorem step_of_ended (h : s.run ≠ .running) : step s = .fault (.runEnded s.run) := if_neg h

theorem step_of_decode_error {c : FaultCode} (hr : s.run = .running)
    (hd : decodeAt s.code s.ip = .error c) : step s = .next (s.afterFault c) := by
  simp [step, State.fetch, hr, hd, raiseFault_eq]

theorem step_of_decode_ok {i : Instr} {rest : List Byte} (hr : s.run = .running)
    (hd : decodeAt s.code s.ip = .ok (i, rest)) : step s = exec i (s.latch i.prefixes) := by
  simp [step, State.fetch, hr, hd]

/-- The inversion lemma of `step`: a next state is reached from a running state only, by the fault
that decoding raises or by what the decoded instruction does. -/
theorem step_cases (h : step s = .next t) : s.run = .running ∧
    ((∃ c, decodeAt s.code s.ip = .error c ∧ t = s.afterFault c) ∨
      ∃ i rest, decodeAt s.code s.ip = .ok (i, rest) ∧ Does i (s.latch i.prefixes) t) := by
  by_cases hr : s.run = .running
  · refine ⟨hr, ?_⟩
    rcases hd : decodeAt s.code s.ip with c | ⟨i, rest⟩
    · rw [step_of_decode_error hr hd] at h
      cases h
      exact .inl ⟨c, rfl, rfl⟩
    · rw [step_of_decode_ok hr hd] at h
      exact .inr ⟨i, rest, rfl, does_of_exec h⟩
  · rw [step_of_ended hr] at h
    cases h

/-! ### The line of an instruction (00_scope.md R16) -/

/-- The line that a completing instruction adds stands in the trace it leaves, whatever it did to
registers, latch and memory before. -/
theorem Effect.commit_trace {i : Instr} {u : State} (h : Effect i s u) (target : Int) :
    (u.commit i target).trace =
      if s.sinkAttached then s.trace ++ [s.params.line i] else s.trace := by
  obtain ⟨-, -, -, -, htrace, -, -, hsink, hparams⟩ := h.keeps
  rw [State.commit_trace, htrace, hsink, hparams]

/-- An instruction run from a running state either takes a fault, or ends in no fault with its one
line added when the sink is attached. -/
theorem Does.faults_or_emits {i : Instr} (h : Does i s t) (hr : s.run = .running) :
    (∃ c, t = s.afterFault c) ∨
      ((∀ c a, t.run ≠ .faulted c a) ∧
        t.trace = if s.sinkAttached then s.trace ++ [s.params.line i] else s.trace) := by
  cases h with
  | outOfRange | eqUnset | branchOut => exact .inl ⟨_, rfl⟩
  | advances u h =>
    obtain ⟨-, -, -, hrun, -⟩ := h.keeps
    exact .inr ⟨by simp [hrun, hr], h.commit_trace _⟩
  | jumps target h => exact .inr ⟨by simp [hr], h.commit_trace _⟩
  | halts | returns => exact .inr ⟨by simp, s.commit_trace i s.ip⟩

/-- A step takes a fault and adds no line, or completes the decoded instruction and adds its line
when the sink is attached. -/
theorem step_faults_or_emits (h : step s = .next t) :
    (∃ c, t = s.afterFault c) ∨
      ∃ i rest, decodeAt s.code s.ip = .ok (i, rest) ∧ (∀ c a, t.run ≠ .faulted c a) ∧
        t.trace = if s.sinkAttached then s.trace ++ [s.params.line i] else s.trace := by
  obtain ⟨hr, ⟨c, -, ht⟩ | ⟨i, rest, hd, hdoes⟩⟩ := step_cases h
  · exact .inl ⟨c, ht⟩
  · obtain ⟨c, ht⟩ | ⟨hok, htrace⟩ := hdoes.faults_or_emits hr
    · exact .inl ⟨c, ht⟩
    · exact .inr ⟨i, rest, hd, hok, htrace⟩

/-! ### Changes of the state that no meaning sees -/

/-- `f` changes only parts of the state that no meaning reads or computes with, and the state that
an instruction leaves from the changed state, seen through `g₁`, is the one it leaves from the
unchanged state, seen through `g₂`. (For a part that the end of every instruction overwrites, `g₁`
and `g₂` are the identity; for one that it keeps, `g₁` is the identity and `g₂` is `f`; for one that
it only adds to, both are `f`.) -/
structure Unseen (f g₁ g₂ : State → State) : Prop where
  gpr : ∀ s, (f s).gpr = s.gpr
  ip : ∀ s, (f s).ip = s.ip
  eq : ∀ s, (f s).eq = s.eq
  mem : ∀ s, (f s).mem = s.mem
  params : ∀ s, (f s).params = s.params
  writeGpr : ∀ s n v, (f s).writeGpr n v = f (s.writeGpr n v)
  clearEq : ∀ s, (f s).clearEq = f s.clearEq
  compareEq : ∀ s v imm, (f s).compareEq v imm = f (s.compareEq v imm)
  setMem : ∀ s m, { f s with mem := m } = f { s with mem := m }
  commit : ∀ s i target, g₁ ((f s).commit i target) = g₂ (s.commit i target)
  endRun : ∀ s i target status, g₁ { (f s).commit i target with run := status } =
    g₂ { s.commit i target with run := status }
  afterFault : ∀ s c, g₁ ((f s).afterFault c) = g₂ (s.afterFault c)

section

variable {f g₁ g₂ : State → State} (h : Unseen f g₁ g₂) (s : State)
include h

theorem Unseen.readGpr (n : RegNum) : (f s).readGpr n = s.readGpr n :=
  State.readGpr_congr _ _ (h.gpr s) n

theorem Unseen.readReg {w : Nat} (r : RegId w) : (f s).readReg r = s.readReg r := by
  simp only [State.readReg, h.readGpr]

theorem Unseen.ea (m : MemRef) : (f s).ea m = s.ea m := by
  simp only [State.ea, h.readGpr]

theorem Unseen.writeReg {w : Nat} (r : RegId w) (v : BitVec w) :
    (f s).writeReg r v = f (s.writeReg r v) := by
  simp only [State.writeReg, h.readGpr, h.params, h.writeGpr]

theorem Unseen.mapNext_complete (i : Instr) :
    mapNext g₁ (complete i (f s)) = mapNext g₂ (complete i s) := by
  simp only [complete_eq, mapNext, h.ip, h.commit]

theorem Unseen.mapNext_raiseFault (c : FaultCode) :
    mapNext g₁ (raiseFault c (f s)) = mapNext g₂ (raiseFault c s) :=
  congrArg _ (h.afterFault s c)

theorem Unseen.mapNext_endRun (i : Instr) (status : RunStatus) :
    mapNext g₁ (Machine.endRun i status (f s)) = mapNext g₂ (Machine.endRun i status s) := by
  simp only [Machine.endRun, mapNext, h.ip, h.endRun]

theorem Unseen.mapNext_load {w : Nat} (ea : Word) {k k' : BitVec w → Result}
    (hk : ∀ v, mapNext g₁ (k' v) = mapNext g₂ (k v)) :
    mapNext g₁ ((f s).load ea w k') = mapNext g₂ (s.load ea w k) := by
  rw [State.load_eq, State.load_eq, h.params, h.mem]
  split
  · exact hk _
  · exact h.mapNext_raiseFault s _

theorem Unseen.mapNext_store {w : Nat} (ea : Word) (v : BitVec w) {k k' : State → Result}
    (hk : ∀ t, mapNext g₁ (k' (f t)) = mapNext g₂ (k t)) :
    mapNext g₁ ((f s).store ea v k') = mapNext g₂ (s.store ea v k) := by
  rw [State.store_eq, State.store_eq, h.setMem, h.params, h.mem]
  split
  · exact hk _
  · exact h.mapNext_raiseFault s _

/-- A branch checks its target against the number of code bytes. -/
theorem Unseen.mapNext_branch (hlen : (f s).code.length = s.code.length) (i : Instr) (d : Int) :
    mapNext g₁ (branch i d (f s)) = mapNext g₂ (branch i d s) := by
  simp only [branch, h.ip, hlen]
  split
  · exact h.mapNext_raiseFault s _
  · exact congrArg _ (h.commit s i _)

theorem Unseen.mapNext_jumpIfEqual (hlen : (f s).code.length = s.code.length) (i : Instr)
    (d : Int) :
    mapNext g₁ (jumpIfEqual i d (f s)) = mapNext g₂ (jumpIfEqual i d s) := by
  unfold jumpIfEqual
  rw [h.eq]
  rcases s.eq with _ | _ | _
  · exact h.mapNext_raiseFault s _
  · exact h.mapNext_complete s i
  · exact h.mapNext_branch s hlen i d

/-- An unseen change that keeps the number of code bytes changes nothing that an instruction does. -/
theorem Unseen.mapNext_exec (hlen : (f s).code.length = s.code.length) (i : Instr) :
    mapNext g₁ (exec i (f s)) = mapNext g₂ (exec i s) := by
  cases i with
  | movRmR | movRImm | movRmImm | xorRmR | subRmImm8 | subRmImm32 =>
    simp only [exec, execMovRmR, execMovRImm, execMovRmImm, execXorRmR, execSubRmImm8,
      execSubRmImm32, h.readReg, h.writeReg, h.clearEq, h.mapNext_complete]
  | movR8M8 | movR32M32 | cmpM8Imm8 | popR64 =>
    simp only [exec, execMovR8M8, execMovR32M32, execCmpM8Imm8, execPopR64, h.ea, h.readGpr]
    refine h.mapNext_load s _ fun v => ?_
    simp only [h.writeReg, h.writeGpr, h.compareEq, h.mapNext_complete]
  | movM8R8 | movM32R32 | movM32Imm32 | pushR64 =>
    simp only [exec, execMovM8R8, execMovM32R32, execMovM32Imm32, execPushR64, h.ea, h.readGpr,
      h.readReg]
    refine h.mapNext_store s _ _ fun t => ?_
    simp only [h.writeGpr, h.mapNext_complete]
  | jeRel8 | jeRel32 => exact h.mapNext_jumpIfEqual s hlen _ _
  | jmpRel32 => exact h.mapNext_branch s hlen _ _
  | endbr64 => exact h.mapNext_complete s _
  | hlt | ret => exact h.mapNext_endRun s _ _

end

/-! ### The trace port is a part that no meaning sees -/

/-- The state with another sink attachment and other recorded lines. -/
def State.withTrace (b : Bool) (lines : List String) (s : State) : State :=
  { s with sinkAttached := b, trace := lines }

theorem State.withTrace_emit (b : Bool) (lines : List String) (s : State) (i : Instr) :
    (s.emit i).withTrace b lines = s.withTrace b lines := by
  unfold State.emit
  split <;> rfl

/-- `emit` is the only part of a commit that looks at the sink or touches the lines. -/
theorem State.withTrace_commit (b : Bool) (lines : List String) (s : State) (i : Instr)
    (target : Int) : ((s.withTrace b lines).commit i target).withTrace b lines =
      (s.commit i target).withTrace b lines :=
  have hemit : ((s.withTrace b lines).emit i).withTrace b lines = (s.emit i).withTrace b lines :=
    (State.withTrace_emit ..).trans (s.withTrace_emit b lines i).symm
  congrArg (fun t : State => { t with ip := target, rex := none, osz := false }) hemit

theorem unseen_withTrace (b : Bool) (lines : List String) :
    Unseen (State.withTrace b lines) (State.withTrace b lines) (State.withTrace b lines) where
  gpr _ := rfl
  ip _ := rfl
  eq _ := rfl
  mem _ := rfl
  params _ := rfl
  writeGpr _ _ _ := rfl
  clearEq _ := rfl
  compareEq _ _ _ := rfl
  setMem _ _ := rfl
  commit s i target := s.withTrace_commit b lines i target
  endRun s i target status :=
    congrArg (fun t : State => { t with run := status }) (s.withTrace_commit b lines i target)
  afterFault _ _ := rfl

/-- Neither the sink nor the recorded lines change any other result of a step. -/
theorem step_withTrace (b : Bool) (lines : List String) (s : State) :
    mapNext (State.withTrace b lines) (step (s.withTrace b lines)) =
      mapNext (State.withTrace b lines) (step s) := by
  by_cases hr : s.run = .running
  · rcases hd : decodeAt s.code s.ip with c | ⟨i, rest⟩
    · rw [step_of_decode_error hr hd, step_of_decode_error (s := s.withTrace b lines) hr hd]
      rfl
    · rw [step_of_decode_ok hr hd, step_of_decode_ok (s := s.withTrace b lines) hr hd]
      exact (unseen_withTrace b lines).mapNext_exec (s.latch i.prefixes) rfl i
  · rw [step_of_ended hr, step_of_ended (s := s.withTrace b lines) hr]
    rfl

/-- Settles O51: the two clauses about the line by what a step does to the trace, the third because
the trace port is a part of the state that no meaning reads. -/
theorem traceIsOutputOnly : Obligations.TraceIsOutputOnly := by
  refine ⟨fun s t _ h hok => ?_, fun s t c a _ h hf => ?_,
    fun s b lines => step_withTrace b lines s⟩
  · obtain ⟨c, rfl⟩ | ⟨i, rest, hd, -, htrace⟩ := step_faults_or_emits h
    · exact absurd rfl (hok c s.ip)
    · exact ⟨i, rest, hd, htrace⟩
  · obtain ⟨c, rfl⟩ | ⟨_, _, -, hok, -⟩ := step_faults_or_emits h
    · rfl
    · exact absurd hf (hok c a)

end Sys2Proof.Machine
end

section
/-! PROOFS. The rules of the state that an instruction sees (10_state.md): what reading and writing
through a register identifier does to its slot, that the REX and operand-size latches
carry nothing from one instruction to the next, and where `ip` stands after an instruction that does
not branch. -/

namespace Sys2Proof.Machine

variable {s t : State} {i : Instr}

/-! ### Reading through an identifier (R35) -/

/-- The view of the 64-bit identifier is the whole slot. -/
theorem State.readReg_w64 (s : State) (n : RegNum) : s.readReg (Width.w64.reg n) = s.readGpr n :=
  BitVec.extractLsb'_eq_self

/-- Settles O14: every read is the identifier's view, and the ranges of bits of the five kinds of
identifier are the view's own definition, but for the whole slot. -/
theorem registerReadGivesView : Obligations.RegisterReadGivesView :=
  ⟨fun _ r s k hk => getLsbD_viewOf r (s.readGpr r.slot) k hk,
    fun n s => ⟨s.readReg_w64 n, rfl, rfl, rfl⟩, fun _ _ => rfl⟩

/-! ### Writing through an identifier (R36, R37) -/

/-- The written slot after a write that clears no bit outside the view. -/
theorem State.readGpr_writeReg_same {w : Nat} (s : State) (r : RegId w) (v : BitVec w)
    (h : ¬ (w = 32 ∧ s.params.zext32 = true)) :
    (s.writeReg r v).readGpr r.slot = replaceView r (s.readGpr r.slot) v := by
  simp [State.writeReg, h]

/-- The written slot after a 32-bit write under `ZEXT32`. -/
theorem State.readGpr_writeReg_zext (s : State) (r : RegId 32) (v : BitVec 32)
    (h : s.params.zext32 = true) : (s.writeReg r v).readGpr r.slot =
      replaceView r (s.readGpr r.slot) v &&& 0xFFFFFFFF#64 := by
  simp [State.writeReg, h]

/-- A write through an identifier replaces the bits of its view. For a 32-bit identifier the view
is the low half of the slot, so that what `ZEXT32` clears lies outside it. -/
theorem viewWritten_writeReg {w : Nat} (r : RegId w) (v : BitVec w) (s : State)
    (h32 : w = 32 → r.offset = 0) : ViewWritten r v s (s.writeReg r v) := by
  intro k hk
  by_cases hz : w = 32 ∧ s.params.zext32 = true
  · obtain ⟨rfl, hzext⟩ := hz
    have hoff := h32 rfl
    rw [s.readGpr_writeReg_zext r v hzext, getLsbD_low32 _ k hk, getLsbD_replaceView r _ v k hk]
    by_cases hlow : k < 32 <;> simp [hoff, hlow, hzext]
  · rw [s.readGpr_writeReg_same r v hz, getLsbD_replaceView r _ v k hk, if_neg hz]

/-- A write through an identifier leaves every other slot as it was. -/
theorem sameGprExcept_writeReg {w : Nat} (r : RegId w) (v : BitVec w) (s : State) :
    SameGprExcept [r.slot] s (s.writeReg r v) where
  slots n hn := s.readGpr_writeReg_ne r v n (List.ne_of_not_mem_cons hn)
  spare := rfl

/-- Settles O15: the view bit by bit, and the frame; nothing but the slots is written. -/
theorem registerWriteReplacesView : Obligations.RegisterWriteReplacesView := by
  intro w r v s hid
  have h32 : w = 32 → r.offset = 0 := by omega
  exact ⟨viewWritten_writeReg r v s h32, sameGprExcept_writeReg r v s, rfl⟩

/-! ### The REX and operand-size latches (R46) -/

/-- Whatever an instruction does, it leaves the latches clear. -/
theorem Does.latches_clear (h : Does i s t) : t.rex = none ∧ t.osz = false := by
  cases h with
  | outOfRange | eqUnset | branchOut => exact ⟨rfl, rfl⟩
  | advances | jumps | halts | returns => exact ⟨rfl, rfl⟩

theorem step_latches_clear (h : step s = .next t) : t.rex = none ∧ t.osz = false := by
  obtain ⟨-, ⟨c, -, rfl⟩ | ⟨i, rest, -, hdoes⟩⟩ := step_cases h
  · exact ⟨rfl, rfl⟩
  · exact hdoes.latches_clear

/-- The end of an instruction overwrites the latches. -/
theorem State.commit_latch (s : State) (p : Prefixes) (i : Instr) (target : Int) :
    (s.latch p).commit i target = s.commit i target := by
  unfold State.commit State.emit
  rw [State.latch_sinkAttached]
  split <;> rfl

theorem unseen_latch (p : Prefixes) : Unseen (State.latch · p) id id where
  gpr _ := rfl
  ip _ := rfl
  eq _ := rfl
  mem _ := rfl
  params _ := rfl
  writeGpr _ _ _ := rfl
  clearEq _ := rfl
  compareEq _ _ _ := rfl
  setMem _ _ := rfl
  commit s i target := s.commit_latch p i target
  endRun s i target status :=
    congrArg (fun t : State => { t with run := status }) (s.commit_latch p i target)
  afterFault _ _ := rfl

theorem mapNext_id (o : Host.Outcome State Fault Refusal) : mapNext id o = o := by
  cases o <;> rfl

/-- What the latches hold before an instruction has no effect on it. -/
theorem exec_latch (i : Instr) (s : State) (p : Prefixes) : exec i (s.latch p) = exec i s := by
  simpa only [mapNext_id] using (unseen_latch p).mapNext_exec s rfl i

/-- What the latches hold before a step has no effect on it: the decoder does not read them, and
sets them anew. -/
theorem step_latch (s : State) (p : Prefixes) : step (s.latch p) = step s := by
  by_cases hr : s.run = .running
  · rcases hd : decodeAt s.code s.ip with c | ⟨i, rest⟩
    · rw [step_of_decode_error hr hd, step_of_decode_error (s := s.latch p) hr hd]
      rfl
    · rw [step_of_decode_ok hr hd, step_of_decode_ok (s := s.latch p) hr hd]
      rfl
  · rw [step_of_ended hr, step_of_ended (s := s.latch p) hr]
    rfl

/-- Settles O52: every way a step ends clears the latches, and the latches are a part of the state
that no meaning reads. -/
theorem prefixLatchesCarryNothing : Obligations.PrefixLatchesCarryNothing :=
  ⟨fun _ _ h => step_latches_clear h, fun s r o => step_latch s ⟨o, r⟩,
    fun i s r o => exec_latch i s ⟨o, r⟩⟩

/-! ### The instruction pointer (R41) -/

/-- Where a run that goes on stands: past the instruction, or, for a branch, within `[0, len]`. -/
theorem Does.ip_of_running (h : Does i s t) (hr : t.run = .running) :
    t.ip = s.ip + i.length ∨
      (i.form ∈ [.jeRel8, .jeRel32, .jmpRel32] ∧ 0 ≤ t.ip ∧ t.ip ≤ s.code.length) := by
  cases h with
  | outOfRange | eqUnset | branchOut => cases hr
  | advances u h hf => exact .inl (u.commit_ip i _)
  | jumps target h hf h0 h1 =>
    have hbranch : i.form ∈ [.jeRel8, .jeRel32, .jmpRel32] := by
      rcases hf with hf | ⟨hf | hf, -⟩ <;> simp [hf]
    rw [State.commit_ip]
    exact .inr ⟨hbranch, h0, h1⟩
  | halts | returns => cases hr

/-- The encoding of an instruction has as many bytes as the table of 30_encoding.md R96 says. -/
theorem encode_length_eq_length : ∀ i : Instr, (encode i).length = i.length
  | .movRmR pre w rm reg => Laws.EncodeLength.movRmR pre w rm reg
  | .movRImm pre w r imm => Laws.EncodeLength.movRImm pre w r imm
  | .movRmImm pre w rm imm => Laws.EncodeLength.movRmImm pre w rm imm
  | .movR8M8 pre reg mem => Laws.EncodeLength.movR8M8 pre reg mem
  | .movM8R8 pre mem reg => Laws.EncodeLength.movM8R8 pre mem reg
  | .movR32M32 pre reg mem => Laws.EncodeLength.movR32M32 pre reg mem
  | .movM32R32 pre mem reg => Laws.EncodeLength.movM32R32 pre mem reg
  | .movM32Imm32 pre mem imm => Laws.EncodeLength.movM32Imm32 pre mem imm
  | .xorRmR pre w rm reg => Laws.EncodeLength.xorRmR pre w rm reg
  | .subRmImm8 pre w rm imm => Laws.EncodeLength.subRmImm8 pre w rm imm
  | .subRmImm32 pre w rm imm => Laws.EncodeLength.subRmImm32 pre w rm imm
  | .cmpM8Imm8 pre mem imm => Laws.EncodeLength.cmpM8Imm8 pre mem imm
  | .pushR64 pre r => Laws.EncodeLength.pushR64 pre r
  | .popR64 pre r => Laws.EncodeLength.popR64 pre r
  | .jeRel8 cb => Laws.EncodeLength.jeRel8 cb
  | .jeRel32 cd => Laws.EncodeLength.jeRel32 cd
  | .jmpRel32 cd => Laws.EncodeLength.jmpRel32 cd
  | .endbr64 => Laws.EncodeLength.endbr64
  | .hlt => Laws.EncodeLength.hlt
  | .ret => Laws.EncodeLength.ret

/-- At the end of the code and past it there is no byte to decode (00_scope.md R29). -/
theorem decodeAt_of_length_le {code : List Byte} {ip : Int} (h : code.length ≤ ip) :
    decodeAt code ip = .error .truncated := by
  have hip : ¬ ip < 0 := by omega
  have hdrop : code.drop ip.toNat = [] := List.drop_eq_nil_of_le (by omega)
  rw [decodeAt, if_neg hip, hdrop]
  rfl

/-- Settles O47: a running state stands past the instruction unless that is a branch, and past the
code the next fetch finds no byte. -/
theorem nonBranchingAdvancesByLength : Obligations.NonBranchingAdvancesByLength := by
  refine ⟨fun i s t hform _ h hr => ?_,
    fun s hr hlen => step_of_decode_error hr (decodeAt_of_length_le hlen)⟩
  rw [encode_length_eq_length]
  rcases (does_of_exec h).ip_of_running hr with hip | ⟨hbranch, -⟩
  · exact hip
  · exact absurd (List.mem_append_left [Form.hlt, .ret] hbranch) hform

end Sys2Proof.Machine
end

section
/-! PROOFS. The rules of the memory spaces (20_memory.md): that an instruction neither writes the code
space nor reads it as data. -/

namespace Sys2Proof.Machine

variable {s t : State}

/-! ### The code space is a part that no meaning sees (R57) -/

/-- The state with other code bytes. -/
def State.withCode (code : List Byte) (s : State) : State := { s with code := code }

@[simp] theorem State.withCode_code (code : List Byte) (s : State) :
    (s.withCode code).code = code := rfl

@[simp] theorem State.withCode_sinkAttached (code : List Byte) (s : State) :
    (s.withCode code).sinkAttached = s.sinkAttached := rfl

theorem State.emit_withCode (code : List Byte) (s : State) (i : Instr) :
    (s.withCode code).emit i = (s.emit i).withCode code := by
  unfold State.emit
  rw [State.withCode_sinkAttached]
  split <;> rfl

/-- The end of an instruction carries the code bytes along. -/
theorem State.commit_withCode (code : List Byte) (s : State) (i : Instr) (target : Int) :
    (s.withCode code).commit i target = (s.commit i target).withCode code :=
  congrArg (fun t : State => { t with ip := target, rex := none, osz := false })
    (s.emit_withCode code i)

theorem unseen_withCode (code : List Byte) :
    Unseen (State.withCode code) id (State.withCode code) where
  gpr _ := rfl
  ip _ := rfl
  eq _ := rfl
  mem _ := rfl
  params _ := rfl
  writeGpr _ _ _ := rfl
  clearEq _ := rfl
  compareEq _ _ _ := rfl
  setMem _ _ := rfl
  commit s i target := s.commit_withCode code i target
  endRun s i target status :=
    congrArg (fun t : State => { t with run := status }) (s.commit_withCode code i target)
  afterFault _ _ := rfl

/-- Other code bytes of the same number stay where they are and change nothing else that an
instruction does. -/
theorem exec_withCode {code : List Byte} (hlen : code.length = s.code.length) (i : Instr) :
    exec i (s.withCode code) = mapNext (State.withCode code) (exec i s) := by
  simpa only [mapNext_id] using (unseen_withCode code).mapNext_exec s hlen i

/-- No instruction writes the code space: with the code of `s` itself put in its place, the run is
that from `s`, and the state it leaves has that code. -/
theorem exec_keeps_code {i : Instr} (h : exec i s = .next t) : t.code = s.code := by
  have hsame : exec i s = mapNext (State.withCode s.code) (exec i s) :=
    exec_withCode (code := s.code) rfl i
  rw [h] at hsame
  have ht : t = t.withCode s.code := Host.Outcome.next.inj hsame
  rw [ht, State.withCode_code]

/-- Settles O50: the code bytes are a part of the state that no meaning reads, but for their number,
and that every instruction carries along. -/
theorem instructionsDoNotTouchCode : Obligations.InstructionsDoNotTouchCode :=
  fun i _ _ hlen => ⟨fun _ h => exec_keeps_code h, exec_withCode hlen i⟩

end Sys2Proof.Machine
end

section
/-! PROOFS. The rules of the encoding (30_encoding.md): the width that a decoded instruction has under
its prefixes. -/

namespace Sys2Proof

/-! ### What a row refuses of the prefixes (R95) -/

/-- A row that allows neither REX.W nor `0x66` admits only prefixes with neither. -/
theorem Allowance.admits_narrow {a : Allowance} {p : Prefixes} (h : a.admits p = true)
    (hw : a.bits[3] = false) (hosz : a.osz = false) : p.w = false ∧ p.osz = false := by
  simp only [Allowance.admits, Bool.and_eq_true, beq_iff_eq, Bool.or_eq_true, hosz] at h
  obtain ⟨⟨-, hbits⟩, hp⟩ := h
  have h3 := congrArg (·.getLsbD 3) hbits
  exact ⟨by simpa [Prefixes.w, hw] using h3, by simpa using hp⟩

/-! ### The width of a row (R84, R94) -/

/-- The width in bits of a row under the prefixes `p`; the control instructions have none. -/
def Form.bits (p : Prefixes) : Form → Option Nat
  | .movRmR | .movRImm | .movRmImm | .xorRmR | .subRmImm8 | .subRmImm32 => some p.width.bits
  | .movR8M8 | .movM8R8 | .cmpM8Imm8 => some 8
  | .movR32M32 | .movM32R32 | .movM32Imm32 => some 32
  | .pushR64 | .popR64 => some 64
  | .jeRel8 | .jeRel32 | .jmpRel32 | .endbr64 | .hlt | .ret => none

/-- The precedence of R84, in bits. -/
theorem Prefixes.width_bits (p : Prefixes) :
    p.width.bits = if p.w then 64 else if p.osz then 16 else 32 := by
  unfold Prefixes.width
  split_ifs <;> rfl

/-- Reading the operands of a row gives an instruction of that row, with the prefixes it was read
under and the width that the row has under them. -/
theorem readOperands_row {p : Prefixes} {s : Selected} {bs rest : List Byte} {i : Instr}
    (hp : s.form.allowance.admits p = true) (h : readOperands p s bs = .ok (i, rest)) :
    i.form = s.form ∧ i.prefixes = p ∧ i.bits = s.form.bits p := by
  unfold readOperands at h
  obtain ⟨f, reg, rm⟩ := s
  cases f with
  | movRmR | xorRmR | pushR64 | popR64 =>
    cases h
    exact ⟨rfl, rfl, rfl⟩
  | movRImm | movRmImm | subRmImm8 | subRmImm32 =>
    obtain ⟨v, -, -, rfl⟩ := withImm_ok h
    exact ⟨rfl, rfl, rfl⟩
  | movR8M8 | movM8R8 | movR32M32 | movM32R32 | movM32Imm32 | cmpM8Imm8 =>
    obtain ⟨d8, v, -, -, rfl⟩ := withMemImm_ok h
    exact ⟨rfl, rfl, rfl⟩
  | jeRel8 | jeRel32 | jmpRel32 =>
    obtain ⟨v, -, -, rfl⟩ := withImm_ok h
    exact ⟨rfl, (eq_bare hp).symm, rfl⟩
  | endbr64 | hlt | ret =>
    cases h
    exact ⟨rfl, (eq_bare hp).symm, rfl⟩

/-- A decoded instruction has prefixes that its row allows, and the width of its row under them. -/
theorem decode_row {bs rest : List Byte} {i : Instr} (h : decode bs = .ok (i, rest)) :
    i.form.allowance.admits i.prefixes = true ∧ i.bits = i.form.bits i.prefixes := by
  obtain ⟨p, s, tail, -, -, hp, hread⟩ := decode_ok h
  obtain ⟨hform, hpre, hbits⟩ := readOperands_row hp hread
  rw [hform, hpre]
  exact ⟨hp, hbits⟩

/-- Settles O11: a decoded instruction has the width of its row; where that is fixed at 8 or 64, the
row allows neither REX.W nor `0x66`. -/
theorem widthFollowsPrecedence : Obligations.WidthFollowsPrecedence := by
  intro bs rest i h
  obtain ⟨hp, hbits⟩ := decode_row h
  rw [hbits, ← i.prefixes.width_bits]
  generalize i.form = f at hp
  refine ⟨fun hf => ?_, fun hf => ?_, fun hf => ?_⟩
  · fin_cases hf <;> rfl
  · fin_cases hf <;> exact ⟨rfl, Allowance.admits_narrow hp rfl rfl⟩
  · fin_cases hf <;> exact ⟨rfl, Allowance.admits_narrow hp rfl rfl⟩

end Sys2Proof
end

section
/-! PROOFS. The rules of exceptions (60_exceptions.md): what a step that faults changes. -/

namespace Sys2Proof.Machine

variable {s t : State}

/-! ### The state that a fault leaves (R135) -/

/-- A step that ends in a fault, raised by decoding or by the instruction, took that fault in the
state it began in. -/
theorem step_eq_afterFault {c : FaultCode} {a : Int} (h : step s = .next t)
    (hf : t.run = .faulted c a) : t = s.afterFault c := by
  obtain ⟨c', rfl⟩ | ⟨_, _, -, hok, -⟩ := step_faults_or_emits h
  · rw [State.afterFault_run] at hf
    cases hf
    rfl
  · exact absurd hf (hok c a)

/-- Settles O43: the state after the step is the one that R135 describes, since a step that completes
its instruction does not end in a fault. -/
theorem faultChangesOnlyRunStatus : Obligations.FaultChangesOnlyRunStatus :=
  fun _ _ _ _ _ h hf => step_eq_afterFault h hf

end Sys2Proof.Machine
end

section
/-! PROOFS. The whole step (70_reset_and_hazards.md R149): a running state always has a next one, and
what its run status can be. -/

namespace Sys2Proof.Machine

variable {s t : State} {i : Instr}

/-! ### The outcomes of a step (R149) -/

/-- The run status that an instruction leaves a running state with. -/
theorem Does.run_cases (h : Does i s t) (hr : s.run = .running) :
    t.run = .running ∨ t.run = .halted ∨ t.run = .returned ∨ ∃ c, t.run = .faulted c s.ip := by
  cases h with
  | outOfRange | eqUnset | branchOut => exact .inr (.inr (.inr ⟨_, rfl⟩))
  | advances u h =>
    obtain ⟨-, -, -, hrun, -⟩ := h.keeps
    exact .inl (by rw [State.commit_run, hrun, hr])
  | jumps target => exact .inl (by rw [State.commit_run, hr])
  | halts => exact .inr (.inl rfl)
  | returns => exact .inr (.inr (.inl rfl))

/-- A running state has a next one: neither the decoder nor a meaning gets stuck. -/
theorem exists_step_of_running (hr : s.run = .running) : ∃ t, step s = .next t := by
  rcases hd : decodeAt s.code s.ip with c | ⟨i, rest⟩
  · exact ⟨_, step_of_decode_error hr hd⟩
  · obtain ⟨t, hexec, -⟩ := exec_does i (s.latch i.prefixes)
    exact ⟨t, (step_of_decode_ok hr hd).trans hexec⟩

theorem step_ne_refused (s : State) (r : Refusal) : step s ≠ .refused r := by
  by_cases hr : s.run = .running
  · obtain ⟨t, h⟩ := exists_step_of_running hr
    simp [h]
  · simp [step_of_ended hr]

/-- The run status after a step. -/
theorem step_run_cases (h : step s = .next t) :
    t.run = .running ∨ t.run = .halted ∨ t.run = .returned ∨ ∃ c, t.run = .faulted c s.ip := by
  obtain ⟨hr, ⟨c, -, rfl⟩ | ⟨i, rest, -, hdoes⟩⟩ := step_cases h
  · exact .inr (.inr (.inr ⟨c, rfl⟩))
  · exact hdoes.run_cases hr

/-- Settles O39: a running state steps by the decoder's fault or by the meaning of what it decoded,
whose cases (`Does`) give both where a run that goes on stands and which status is left. -/
theorem stepOutcomeIsOneOfTheFour : Obligations.StepOutcomeIsOneOfTheFour := by
  refine fun s => ⟨step_ne_refused s, fun hr t h => hr (step_cases h).1, fun hr => ?_⟩
  obtain ⟨t, h⟩ := exists_step_of_running hr
  refine ⟨t, h, ?_, step_run_cases h⟩
  obtain ⟨-, hfault | ⟨i, rest, hd, hdoes⟩⟩ := step_cases h
  · exact .inl hfault
  · have hexec : exec i (s.latch i.prefixes) = .next t := (step_of_decode_ok hr hd).symm.trans h
    exact .inr ⟨i, rest, hd, hexec, hdoes.ip_of_running⟩

end Sys2Proof.Machine
end

section
/-! PROOFS. The encoder and the decoder are inverse to each other (30_encoding.md R94 to R98,
R100). -/

namespace Sys2Proof

theorem wellFormed_iff {i : Instr} : WellFormed i = true ↔
    i.form.allowance.admits i.prefixes = true ∧ i.operandsOk = true :=
  Bool.and_eq_true_iff

/-! ### The row and the operand bytes of an instruction -/

/-- The row of an instruction, with the register fields that its ModRM or opcode byte holds. -/
@[simp] def Instr.selected : Instr → Selected
  | .movRmR _ _ rm reg => ⟨.movRmR, RegNum.field reg, RegNum.field rm⟩
  | .movRImm _ _ r _ => ⟨.movRImm, 0, RegNum.field r⟩
  | .movRmImm _ _ rm _ => ⟨.movRmImm, 0, RegNum.field rm⟩
  | .movR8M8 _ reg mem => ⟨.movR8M8, reg.field, RegNum.field mem.base⟩
  | .movM8R8 _ mem reg => ⟨.movM8R8, reg.field, RegNum.field mem.base⟩
  | .movR32M32 _ reg mem => ⟨.movR32M32, RegNum.field reg, RegNum.field mem.base⟩
  | .movM32R32 _ mem reg => ⟨.movM32R32, RegNum.field reg, RegNum.field mem.base⟩
  | .movM32Imm32 _ mem _ => ⟨.movM32Imm32, 0, RegNum.field mem.base⟩
  | .xorRmR _ _ rm reg => ⟨.xorRmR, RegNum.field reg, RegNum.field rm⟩
  | .subRmImm8 _ _ rm _ => ⟨.subRmImm8, 5, RegNum.field rm⟩
  | .subRmImm32 _ _ rm _ => ⟨.subRmImm32, 5, RegNum.field rm⟩
  | .cmpM8Imm8 _ mem _ => ⟨.cmpM8Imm8, 7, RegNum.field mem.base⟩
  | .pushR64 _ r => ⟨.pushR64, 0, RegNum.field r⟩
  | .popR64 _ r => ⟨.popR64, 0, RegNum.field r⟩
  | .jeRel8 _ => ⟨.jeRel8, 0, 0⟩
  | .jeRel32 _ => ⟨.jeRel32, 0, 0⟩
  | .jmpRel32 _ => ⟨.jmpRel32, 0, 0⟩
  | .endbr64 => ⟨.endbr64, 0, 0⟩
  | .hlt => ⟨.hlt, 0, 0⟩
  | .ret => ⟨.ret, 0, 0⟩

/-- The bytes of an instruction after its opcode and ModRM bytes: displacement and immediate. -/
@[simp] def Instr.operandBytes : Instr → List Byte
  | .movRImm _ w _ imm => leBytes w.bytes imm.toNat
  | .movRmImm _ w _ imm => leBytes w.modRMImmBytes imm.toNat
  | .movR8M8 _ _ mem | .movM8R8 _ mem _ | .movR32M32 _ _ mem | .movM32R32 _ mem _ => [mem.d8]
  | .movM32Imm32 _ mem imm => mem.d8 :: leBytes 4 imm.toNat
  | .subRmImm8 _ _ _ imm => leBytes 1 imm.toNat
  | .subRmImm32 _ _ _ imm => leBytes 4 imm.toNat
  | .cmpM8Imm8 _ mem imm => mem.d8 :: leBytes 1 imm.toNat
  | .jeRel8 cb => leBytes 1 cb.toNat
  | .jeRel32 cd | .jmpRel32 cd => leBytes 4 cd.toNat
  | .movRmR _ _ _ _ | .xorRmR _ _ _ _ | .pushR64 _ _ | .popR64 _ _ | .endbr64 | .hlt | .ret => []

theorem Instr.selected_form (i : Instr) : i.selected.form = i.form := by cases i <;> rfl

/-- A `+r` opcode byte holds the low three bits of its register and no more. -/
theorem plusR_regNum_field (op : BitVec 5) (n : RegNum) (bit : Bool) :
    plusR op (regNum bit (RegNum.field n)) = plusR op n := by
  revert op n bit; decide

/-- The bytes after the prefixes are the head of the row and the operand bytes. -/
theorem Instr.body_eq (i : Instr) : i.body = i.selected.head ++ i.operandBytes := by
  cases i with
  | movRImm | pushR64 | popR64 =>
    simp only [Instr.body, Instr.selected, Selected.head, plusR_regNum_field]
    rfl
  | _ => rfl

/-- The base of an encodable memory operand does not ask for a SIB byte. -/
theorem MemRef.field_base_ne {m : MemRef} {p : Prefixes} (h : m.encodable p = true) :
    RegNum.field m.base ≠ 4#3 := by
  have low3 : ∀ n : RegNum, n.setWidth 3 ≠ 4#3 → RegNum.field n ≠ 4#3 := by decide
  simp only [MemRef.encodable, Bool.and_eq_true, bne_iff_ne] at h
  exact low3 m.base h.2

/-- The register fields of an instruction are ones that its row lists. -/
theorem Instr.fieldsOk_selected {i : Instr} (h : i.operandsOk = true) : i.selected.fieldsOk := by
  cases i with
  | movR8M8 | movM8R8 | movR32M32 | movM32R32 =>
    exact MemRef.field_base_ne (Bool.and_eq_true_iff.mp h).2
  | movM32Imm32 | cmpM8Imm8 => exact ⟨rfl, MemRef.field_base_ne h⟩
  | movRmImm | subRmImm8 | subRmImm32 => rfl
  | _ => trivial

/-! ### Reading the operands back (R85, R87, R89, R90) -/

theorem withImm_leBytes {n v : Nat} (k : Nat → Instr) (rest : List Byte) (h : v < 256 ^ n) :
    withImm n k (leBytes n v ++ rest) = .ok (k v, rest) := by
  simp only [withImm, nextLE_leBytes n v rest h]

theorem withMemImm_leBytes {n v : Nat} (p : Prefixes) (s : Selected) (k : MemRef → Nat → Instr)
    (d8 : Byte) (rest : List Byte) (h : v < 256 ^ n) :
    withMemImm p s n k (d8 :: (leBytes n v ++ rest)) = .ok (k (memRef p s.rm d8) v, rest) :=
  withImm_leBytes (k (memRef p s.rm d8)) rest h

/-- Reading the operand bytes of an instruction under its prefixes gives the instruction. -/
theorem readOperands_operandBytes {i : Instr} (h : i.operandsOk = true) (rest : List Byte) :
    readOperands i.prefixes i.selected (i.operandBytes ++ rest) = .ok (i, rest) := by
  cases i with
  | movRmR p w rm reg | xorRmR p w rm reg =>
    simp only [Instr.operandsOk, Prefixes.selects, Bool.and_eq_true, beq_iff_eq] at h
    obtain ⟨⟨rfl, hrm⟩, hreg⟩ := h
    simp [readOperands, Instr.prefixes, regNum_field, hrm, hreg]
  | movRImm p w r imm =>
    simp only [Instr.operandsOk, Prefixes.selects, Bool.and_eq_true, beq_iff_eq,
      decide_eq_true_eq, Width.bits_eq, Nat.pow_mul] at h
    obtain ⟨⟨rfl, hr⟩, himm⟩ := h
    simp [readOperands, Instr.prefixes, regNum_field, hr,
      withImm_leBytes _ _ himm]
  | movRmImm p w rm imm =>
    simp only [Instr.operandsOk, Prefixes.selects, Bool.and_eq_true, beq_iff_eq,
      decide_eq_true_eq, Nat.pow_mul] at h
    obtain ⟨⟨rfl, hrm⟩, himm⟩ := h
    simp [readOperands, Instr.prefixes, regNum_field, hrm,
      withImm_leBytes _ _ himm]
  | subRmImm8 p w rm imm =>
    simp only [Instr.operandsOk, Prefixes.selects, Bool.and_eq_true, beq_iff_eq] at h
    obtain ⟨rfl, hrm⟩ := h
    simp [readOperands, Instr.prefixes, regNum_field, hrm,
      withImm_leBytes _ _ (toNat_lt_256_pow 1 8 rfl imm)]
  | subRmImm32 p w rm imm =>
    simp only [Instr.operandsOk, Prefixes.selects, Bool.and_eq_true, beq_iff_eq] at h
    obtain ⟨rfl, hrm⟩ := h
    simp [readOperands, Instr.prefixes, regNum_field, hrm,
      withImm_leBytes _ _ (toNat_lt_256_pow 4 32 rfl imm)]
  | movR8M8 p reg mem | movM8R8 p mem reg =>
    obtain ⟨hreg, hmem⟩ := Bool.and_eq_true_iff.mp h
    simp [readOperands, Instr.prefixes, reg8_field, hreg,
      withMemImm, memRef_field, hmem, withImm, nextLE]
  | movR32M32 p reg mem | movM32R32 p mem reg =>
    obtain ⟨hreg, hmem⟩ := Bool.and_eq_true_iff.mp h
    simp [readOperands, Instr.prefixes, regNum_field, hreg,
      withMemImm, memRef_field, hmem, withImm, nextLE]
  | movM32Imm32 p mem imm =>
    simp [readOperands, Instr.prefixes,
      withMemImm_leBytes _ _ _ _ _ (toNat_lt_256_pow 4 32 rfl imm), memRef_field p mem h]
  | cmpM8Imm8 p mem imm =>
    simp [readOperands, Instr.prefixes,
      withMemImm_leBytes _ _ _ _ _ (toNat_lt_256_pow 1 8 rfl imm), memRef_field p mem h]
  | pushR64 p r | popR64 p r =>
    simp [readOperands, Instr.prefixes, regNum_field _ _ h]
  | jeRel8 cb =>
    simp [readOperands,
      withImm_leBytes _ _ (toNat_lt_256_pow 1 8 rfl cb)]
  | jeRel32 cd | jmpRel32 cd =>
    simp [readOperands,
      withImm_leBytes _ _ (toNat_lt_256_pow 4 32 rfl cd)]
  | endbr64 | hlt | ret => rfl

/-- Settles O2: the bytes are prefixes, the head of the row and operand bytes, and each part is read
back; the row allows the prefixes by well-formedness. -/
theorem decodeOfEncodeIsTheInstruction : Obligations.DecodeOfEncodeIsTheInstruction := by
  intro i rest h
  obtain ⟨hp, hops⟩ := wellFormed_iff.mp h
  rw [encode, Instr.body_eq, List.append_assoc, List.append_assoc,
    decode_head _ _ _ (Instr.fieldsOk_selected hops), Instr.selected_form, if_pos hp,
    readOperands_operandBytes hops]

/-! ### What has been decoded, encoded again (R95, R100) -/

/-- A number read from `k` bytes is kept by every word of as many bits or more. -/
theorem toNat_ofNat_of_lt {v k : Nat} (n : Nat) (hn : 8 * k ≤ n) (h : v < 256 ^ k) :
    (BitVec.ofNat n v).toNat = v := by
  rw [show 256 = 2 ^ 8 from rfl, ← Nat.pow_mul] at h
  rw [BitVec.toNat_ofNat, Nat.mod_eq_of_lt (h.trans_le (Nat.pow_le_pow_right (by decide) hn))]

theorem Width.bytes_le (w : Width) : 8 * w.bytes ≤ 64 := by cases w <;> decide

theorem Width.modRMImmBytes_le (w : Width) : 8 * w.modRMImmBytes ≤ 32 := by cases w <;> decide

@[simp] theorem MemRef.encode_memRef (p : Prefixes) (rm reg : BitVec 3) (d8 : Byte) :
    (memRef p rm d8).encode reg = [modRM 1 reg rm, d8] := by
  simp [MemRef.encode, memRef, field_regNum]

/-- What reading the operands of a row answers is well-formed but for the row's prefixes, and its
bytes are the head of the row and the operand bytes read. -/
theorem readOperands_body {p : Prefixes} {s : Selected} {bs rest : List Byte} {i : Instr}
    (hs : s.fieldsOk) (h : readOperands p s bs = .ok (i, rest)) :
    i.operandsOk = true ∧ i.body ++ rest = s.head ++ bs := by
  unfold readOperands at h
  obtain ⟨f, reg, rm⟩ := s
  cases f with
  | movRmR | xorRmR =>
    cases h
    simp [Instr.operandsOk, Prefixes.selects, hasBit_regNum, Instr.body, Selected.head,
      field_regNum]
  | movRImm =>
    obtain ⟨v, hv, rfl, rfl⟩ := withImm_ok h
    have himm := toNat_ofNat_of_lt 64 p.width.bytes_le hv
    have hlt : v < 2 ^ p.width.bits := by rwa [Width.bits_eq, Nat.pow_mul]
    clear h
    simp [-BitVec.toNat_ofNat, Instr.operandsOk, Prefixes.selects, hasBit_regNum, Instr.body,
      Selected.head, plusR_eq _ p.b false, himm, hlt]
  | movRmImm =>
    obtain ⟨v, hv, rfl, rfl⟩ := withImm_ok h
    have himm := toNat_ofNat_of_lt 32 p.width.modRMImmBytes_le hv
    have hlt : v < 2 ^ (8 * p.width.modRMImmBytes) := by rwa [Nat.pow_mul]
    obtain rfl : reg = 0#3 := hs
    clear h
    simp [-BitVec.toNat_ofNat, Instr.operandsOk, Prefixes.selects, hasBit_regNum, Instr.body,
      Selected.head, field_regNum, himm, hlt]
  | subRmImm8 =>
    obtain ⟨v, hv, rfl, rfl⟩ := withImm_ok h
    obtain rfl : reg = 5#3 := hs
    clear h
    simp [-BitVec.toNat_ofNat, Instr.operandsOk, Prefixes.selects, hasBit_regNum, Instr.body,
      Selected.head, field_regNum, toNat_ofNat_of_lt 8 le_rfl hv]
  | subRmImm32 =>
    obtain ⟨v, hv, rfl, rfl⟩ := withImm_ok h
    obtain rfl : reg = 5#3 := hs
    clear h
    simp [-BitVec.toNat_ofNat, Instr.operandsOk, Prefixes.selects, hasBit_regNum, Instr.body,
      Selected.head, field_regNum, toNat_ofNat_of_lt 32 le_rfl hv]
  | movR8M8 | movM8R8 =>
    obtain ⟨d8, v, -, rfl, rfl⟩ := withMemImm_ok h
    clear h
    simp [Instr.operandsOk, selectable_reg8, encodable_memRef p rm d8 hs, Instr.body,
      Selected.head, field_reg8, leBytes]
  | movR32M32 | movM32R32 =>
    obtain ⟨d8, v, -, rfl, rfl⟩ := withMemImm_ok h
    clear h
    simp [Instr.operandsOk, hasBit_regNum, encodable_memRef p rm d8 hs, Instr.body,
      Selected.head, field_regNum, leBytes]
  | movM32Imm32 =>
    obtain ⟨d8, v, hv, rfl, rfl⟩ := withMemImm_ok h
    obtain ⟨rfl : reg = 0#3, hrm⟩ := hs
    clear h
    simp [-BitVec.toNat_ofNat, Instr.operandsOk, encodable_memRef p rm d8 hrm, Instr.body,
      Selected.head, toNat_ofNat_of_lt 32 le_rfl hv]
  | cmpM8Imm8 =>
    obtain ⟨d8, v, hv, rfl, rfl⟩ := withMemImm_ok h
    obtain ⟨rfl : reg = 7#3, hrm⟩ := hs
    clear h
    simp [-BitVec.toNat_ofNat, Instr.operandsOk, encodable_memRef p rm d8 hrm, Instr.body,
      Selected.head, toNat_ofNat_of_lt 8 le_rfl hv]
  | pushR64 | popR64 =>
    cases h
    simp [Instr.operandsOk, hasBit_regNum, Instr.body, Selected.head, plusR_eq _ p.b false]
  | jeRel8 =>
    obtain ⟨v, hv, rfl, rfl⟩ := withImm_ok h
    clear h
    simp [-BitVec.toNat_ofNat, Instr.operandsOk, Instr.body, Selected.head,
      toNat_ofNat_of_lt 8 le_rfl hv]
  | jeRel32 | jmpRel32 =>
    obtain ⟨v, hv, rfl, rfl⟩ := withImm_ok h
    clear h
    simp [-BitVec.toNat_ofNat, Instr.operandsOk, Instr.body, Selected.head,
      toNat_ofNat_of_lt 32 le_rfl hv]
  | endbr64 | hlt | ret =>
    cases h
    exact ⟨rfl, rfl⟩

/-- Settles O3: what was read are prefixes that the row allows, the head of the row and operand
bytes, and these are the parts of the encoding. -/
theorem encodeOfDecodeIsTheBytesRead : Obligations.EncodeOfDecodeIsTheBytesRead := by
  intro bs rest i h
  obtain ⟨p, s, tail, rfl, hs, hp, hread⟩ := decode_ok h
  obtain ⟨hform, hpre, -⟩ := readOperands_row hp hread
  obtain ⟨hops, hbody⟩ := readOperands_body hs hread
  refine ⟨?_, ?_⟩
  · rw [wellFormed_iff, hform, hpre]
    exact ⟨hp, hops⟩
  · rw [encode, hpre, List.append_assoc, hbody, List.append_assoc]

end Sys2Proof
end

section
/-! PROOFS. What the decoder reads and refuses (30_encoding.md R76 to R100): the length of an
instruction, the faults of decoding, and the table of prefixes. -/

namespace Sys2Proof

/-! ### The number of bytes read (R96) -/

/-- Settles O4: what was read is the encoding, whose length is that of the table. -/
theorem decodedLengthIsTheTables : Obligations.DecodedLengthIsTheTables := by
  intro bs rest i h
  obtain ⟨-, rfl⟩ := encodeOfDecodeIsTheBytesRead bs rest i h
  have hlen := Machine.encode_length_eq_length i
  refine ⟨by rw [List.length_append, hlen], by rw [← hlen, List.drop_left], ?_⟩
  cases i with
  | movRImm p w =>
    have hbytes : w.bytes = w.bits / 8 := by cases w <;> rfl
    exact congrArg (p.count + 1 + ·) hbytes
  | movRmImm p w =>
    have hbytes : w.modRMImmBytes = if some w.bits = some 16 then 2 else 4 := by cases w <;> rfl
    exact congrArg (p.count + 2 + ·) hbytes
  | _ => rfl

/-! ### The faults of decoding (R99) -/

/-- The faults that decoding may raise. -/
def FaultCode.RaisedByDecode (c : FaultCode) : Prop :=
  c = .unsupportedPrefix ∨ c = .unsupportedOpcode ∨ c = .unsupportedModRM ∨ c = .truncated

theorem matchBytes_error {es bs : List Byte} {c : FaultCode} (h : matchBytes es bs = .error c) :
    c = .unsupportedOpcode ∨ c = .truncated := by
  induction es generalizing bs with
  | nil => cases h
  | cons e es ih =>
    cases bs with
    | nil => cases h; exact .inr rfl
    | cons b bs =>
      simp only [matchBytes] at h
      split_ifs at h
      · exact ih h
      · cases h; exact .inl rfl

theorem selectMemory_eq_error {mod : BitVec 2} {rm : BitVec 3} {c : FaultCode} (f : Form) :
    selectMemory f mod rm = .error c ↔ ¬ (mod = 1 ∧ rm ≠ 4) ∧ c = .unsupportedModRM := by
  unfold selectMemory
  split_ifs <;> simp_all [eq_comm]

theorem selectRegister_eq_error {mod : BitVec 2} {c : FaultCode} (f : Form) :
    selectRegister f mod = .error c ↔ mod ≠ 3 ∧ c = .unsupportedModRM := by
  unfold selectRegister
  split_ifs <;> simp_all [eq_comm]

/-- A row selection whose only faults are UNSUPPORTED_OPCODE and UNSUPPORTED_MODRM. -/
def RaisesRowFaults (r : Except FaultCode Form) : Prop :=
  ∀ c, r = .error c → c = .unsupportedOpcode ∨ c = .unsupportedModRM

theorem RaisesRowFaults.ite {p : Prop} [Decidable p] {a b : Except FaultCode Form}
    (ha : RaisesRowFaults a) (hb : RaisesRowFaults b) :
    RaisesRowFaults (if p then a else b) := by
  split
  · exact ha
  · exact hb

/-- Each branch of `selectRow` answers a row, asks for a `mod`, or raises one of the two faults. -/
theorem raisesRowFaults_selectRow (op : Byte) (mod : BitVec 2) (reg rm : BitVec 3) :
    RaisesRowFaults (selectRow op mod reg rm) :=
  have row {f} : RaisesRowFaults (.ok f) := nofun
  have modRM : RaisesRowFaults (.error .unsupportedModRM) := fun _ h => by cases h; exact .inr rfl
  have opcode : RaisesRowFaults (.error .unsupportedOpcode) := fun _ h => by cases h; exact .inl rfl
  have memory {f} : RaisesRowFaults (selectMemory f mod rm) := .ite row modRM
  have register {f} : RaisesRowFaults (selectRegister f mod) := .ite row modRM
  .ite memory <| .ite (.ite row memory) <| .ite memory <| .ite memory <|
    .ite (.ite modRM (.ite row memory)) <| .ite register <| .ite (.ite modRM register) <|
    .ite (.ite modRM register) <| .ite (.ite modRM memory) opcode

/-- Opcode dispatch raises no UNSUPPORTED_PREFIX. -/
theorem selectForm_error {op : Byte} {bs : List Byte} {c : FaultCode}
    (h : selectForm op bs = .error c) :
    c = .unsupportedOpcode ∨ c = .unsupportedModRM ∨ c = .truncated := by
  unfold selectForm at h
  split_ifs at h
  · split at h <;> cases h
    exact (matchBytes_error ‹_›).imp_right .inr
  · split at h <;> cases h
    exact (matchBytes_error ‹_›).imp_right .inr
  · cases bs with
    | nil => cases h; exact .inr (.inr rfl)
    | cons m bs =>
      simp only [nextByte_cons] at h
      split at h <;> cases h
      exact (raisesRowFaults_selectRow _ _ _ _ _ ‹_›).imp_right .inl
  · split at h <;> cases h
    exact .inl rfl

/-- How many bytes follow the opcode and ModRM bytes of a row: displacement and immediate (R96). -/
def Form.operandCount (p : Prefixes) : Form → Nat
  | .movRImm => p.width.bytes
  | .movRmImm => p.width.modRMImmBytes
  | .movR8M8 | .movM8R8 | .movR32M32 | .movM32R32 => 0 + 1
  | .movM32Imm32 => 4 + 1
  | .cmpM8Imm8 => 1 + 1
  | .subRmImm8 | .jeRel8 => 1
  | .subRmImm32 | .jeRel32 | .jmpRel32 => 4
  | .movRmR | .xorRmR | .pushR64 | .popR64 | .endbr64 | .hlt | .ret => 0

theorem Form.operandCount_le (p : Prefixes) (f : Form) : f.operandCount p ≤ 8 := by
  cases f with
  | movRImm | movRmImm =>
    simp only [Form.operandCount]
    cases p.width <;> decide
  | _ => exact Nat.le_of_ble_eq_true rfl

theorem withImm_cases (n : Nat) (k : Nat → Instr) (bs : List Byte) :
    (n ≤ bs.length ∧ ∃ i rest, withImm n k bs = .ok (i, rest)) ∨
      (bs.length < n ∧ withImm n k bs = .error .truncated) := by
  unfold withImm
  rw [nextLE_eq]
  by_cases h : n ≤ bs.length
  · exact .inl ⟨h, _, _, by rw [if_pos h]⟩
  · exact .inr ⟨by omega, by rw [if_neg h]⟩

theorem withMemImm_cases (p : Prefixes) (s : Selected) (n : Nat) (k : MemRef → Nat → Instr)
    (bs : List Byte) :
    (n + 1 ≤ bs.length ∧ ∃ i rest, withMemImm p s n k bs = .ok (i, rest)) ∨
      (bs.length < n + 1 ∧ withMemImm p s n k bs = .error .truncated) := by
  cases bs with
  | nil => exact .inr ⟨by simp, rfl⟩
  | cons d8 bs => simpa [withMemImm] using withImm_cases n (k (memRef p s.rm d8)) bs

/-- Reading the operands fails only by running out of bytes. -/
theorem readOperands_cases (p : Prefixes) (s : Selected) (bs : List Byte) :
    (s.form.operandCount p ≤ bs.length ∧ ∃ i rest, readOperands p s bs = .ok (i, rest)) ∨
      (bs.length < s.form.operandCount p ∧ readOperands p s bs = .error .truncated) := by
  unfold readOperands
  obtain ⟨f, reg, rm⟩ := s
  cases f with
  | movRImm | movRmImm | subRmImm8 | subRmImm32 | jeRel8 | jeRel32 | jmpRel32 =>
    exact withImm_cases _ _ bs
  | movR8M8 | movM8R8 | movR32M32 | movM32R32 | movM32Imm32 | cmpM8Imm8 =>
    exact withMemImm_cases p _ _ _ bs
  | movRmR | xorRmR | pushR64 | popR64 | endbr64 | hlt | ret =>
    exact .inl ⟨Nat.zero_le _, _, _, rfl⟩

theorem decode_error {bs : List Byte} {c : FaultCode} (h : decode bs = .error c) :
    c.RaisedByDecode := by
  unfold decode decodeOpcode at h
  rcases hbs : (readPrefixes bs).2 with _ | ⟨op, rest⟩ <;> rw [hbs] at h
  · cases h; exact .inr (.inr (.inr rfl))
  · simp only [nextByte_cons] at h
    split_ifs at h
    · cases h; exact .inl rfl
    · split at h
      · cases h
        exact .inr (selectForm_error ‹_›)
      · split_ifs at h
        · obtain ⟨-, _, _, hok⟩ | ⟨-, herr⟩ := readOperands_cases (readPrefixes bs).1 ‹_› ‹_›
          · rw [hok] at h; cases h
          · rw [herr] at h; cases h; exact .inr (.inr (.inr rfl))
        · cases h; exact .inl rfl

/-- An instruction that decodes at an offset ends within the buffer. -/
theorem decodeAt_within {code rest : List Byte} {ip : Int} {i : Instr}
    (h : decodeAt code ip = .ok (i, rest)) : 0 ≤ ip ∧ ip + i.length ≤ code.length := by
  unfold decodeAt at h
  split_ifs at h
  obtain ⟨hlen, -⟩ := decodedLengthIsTheTables _ _ _ h
  rw [List.length_drop] at hlen
  have hpos : 0 < i.length := by
    cases i <;> simp [Instr.length]
  omega

/-- Settles O5: each part of the decoder raises faults of its own only, and what was read stands in
the buffer. -/
theorem decodeRaisesOnlyDecodeFaults : Obligations.DecodeRaisesOnlyDecodeFaults := by
  refine ⟨fun code ip c h => ?_, fun _ _ _ _ h => decodeAt_within h⟩
  unfold decodeAt at h
  split_ifs at h
  · cases h; exact .inr (.inr (.inr rfl))
  · exact decode_error h

end Sys2Proof
end

section
/-! PROOFS. Refusals of the decoder (30_encoding.md R77, R86 to R95, R133): a cut-off instruction,
prefixes that a row does not take or in another order, and unlisted opcodes and ModRM bytes. -/

namespace Sys2Proof

/-! ### Opcode bytes behind prefixes -/

/-- Behind any prefixes, the fault of opcode dispatch is the fault of decoding. -/
theorem decode_of_selectForm_error {op : Byte} {rest : List Byte} {c : FaultCode} (p : Prefixes)
    (hosz : op ≠ oszByte) (hrex : isRex op = false) (h : selectForm op rest = .error c) :
    decode (p.encode ++ op :: rest) = .error c := by
  rw [decode_encode_prefixes p op rest hosz hrex]
  simp [decodeOpcode, hosz, hrex, h]

/-- An opcode with a ModRM byte is none of the prefixes and begins no longer opcode. -/
theorem hasModRM_separate : ∀ op : Byte, hasModRM op = true →
    op ≠ oszByte ∧ isRex op = false ∧ op ≠ 0x0F#8 ∧ op ≠ 0xF3#8 := by decide

theorem selectForm_modRM_missing {op : Byte} (h : hasModRM op = true) :
    selectForm op [] = .error .truncated := by
  obtain ⟨-, -, h0F, hF3⟩ := hasModRM_separate op h
  simp [selectForm, h0F, hF3, h]

theorem selectForm_modRM_error {op m : Byte} {rest : List Byte} {c : FaultCode}
    (h : hasModRM op = true)
    (hrow : selectRow op (m.extractLsb' 6 2) (m.extractLsb' 3 3) (m.extractLsb' 0 3) = .error c) :
    selectForm op (m :: rest) = .error c := by
  obtain ⟨-, -, h0F, hF3⟩ := hasModRM_separate op h
  simp [selectForm, h0F, hF3, h, hrow]

/-! ### Instructions cut off by the end of the code (R133) -/

/-- What is left of prefixes that are cut off are prefixes. -/
theorem Prefixes.take_encode (p : Prefixes) (k : Nat) :
    ∃ q : Prefixes, p.encode.take k = q.encode := by
  obtain ⟨osz, rex⟩ := p
  match osz, rex, k with
  | _, _, 0 => exact ⟨.bare, rfl⟩
  | false, none, k + 1 => exact ⟨.bare, rfl⟩
  | true, none, k + 1 => exact ⟨⟨true, none⟩, by simp [encode]⟩
  | false, some r, k + 1 => exact ⟨⟨false, some r⟩, by simp [encode]⟩
  | true, some r, 1 => exact ⟨⟨true, none⟩, rfl⟩
  | true, some r, k + 2 => exact ⟨⟨true, some r⟩, by simp [encode]⟩

theorem decode_prefixes_alone (p : Prefixes) : decode p.encode = .error .truncated := by
  obtain ⟨osz, rex⟩ := p
  cases osz <;> cases rex <;>
    simp [Prefixes.encode, decode, decodeOpcode, readPrefixes, readOsz, readRex, isRex_append,
      rex_ne_osz]

/-- The head of a row, cut off behind any prefixes. -/
theorem decode_take_head (p : Prefixes) (s : Selected) (k : Nat) (hk : k < s.head.length) :
    decode (p.encode ++ s.head.take k) = .error .truncated := by
  have modRM : ∀ op : Byte, hasModRM op = true → decode (p.encode ++ [op]) = .error .truncated :=
    fun op h => decode_of_selectForm_error p (hasModRM_separate op h).1 (hasModRM_separate op h).2.1
      (selectForm_modRM_missing h)
  rcases k with _ | k
  · rw [List.take_zero, List.append_nil, decode_prefixes_alone]
  obtain ⟨f, reg, rm⟩ := s
  cases f with
  | movRImm | pushR64 | popR64 | jeRel8 | jmpRel32 | hlt | ret =>
    simp [Selected.head] at hk
  | jeRel32 =>
    obtain rfl : k = 0 := by simpa [Selected.head] using hk
    exact decode_of_selectForm_error p (by decide) (by decide) rfl
  | endbr64 =>
    match k, hk with
    | 0, _ | 1, _ | 2, _ => exact decode_of_selectForm_error p (by decide) (by decide) rfl
  | _ =>
    obtain rfl : k = 0 := by simpa [Selected.head] using hk
    exact modRM _ (by decide)

/-- An encoding cut short does not decode: what it decoded to would be the whole instruction. -/
theorem decode_take_ne_ok {i j : Instr} {k : Nat} {rest : List Byte} (h : WellFormed i = true)
    (hk : k < (encode i).length) : decode ((encode i).take k) ≠ .ok (j, rest) := by
  intro hd
  obtain ⟨hj, hread⟩ := encodeOfDecodeIsTheBytesRead _ _ _ hd
  have hi := decodeOfEncodeIsTheInstruction i [] h
  rw [List.append_nil, ← List.take_append_drop k (encode i), ← hread, List.append_assoc,
    decodeOfEncodeIsTheInstruction j _ hj] at hi
  have hnil : rest ++ (encode i).drop k = [] := congrArg Prod.snd (Except.ok.inj hi)
  have hdrop := congrArg List.length (List.append_eq_nil_iff.mp hnil).2
  simp at hdrop
  omega

/-- Settles O6: the cut is in the prefixes, in the head of the row or in the operand bytes, and each
reader raises TRUNCATED there; a fetch outside the buffer finds no byte. -/
theorem cutOffInstructionIsTruncated : Obligations.CutOffInstructionIsTruncated := by
  refine ⟨fun i k h hk => ?_, fun code ip h => ?_⟩
  · obtain ⟨hp, hops⟩ := wellFormed_iff.mp h
    have hne := fun j rest => decode_take_ne_ok (j := j) (rest := rest) h hk
    rw [encode, Instr.body_eq] at hne ⊢
    obtain hk | ⟨k, rfl⟩ : k ≤ i.prefixes.encode.length ∨ ∃ m, k = i.prefixes.encode.length + m :=
      (Nat.le_total k _).imp_right Nat.exists_eq_add_of_le
    · obtain ⟨q, hq⟩ := i.prefixes.take_encode k
      rw [List.take_append_of_le_length hk, hq, decode_prefixes_alone]
    rw [List.take_length_add_append] at hne ⊢
    obtain hk | ⟨k, rfl⟩ : k < i.selected.head.length ∨ ∃ m, k = i.selected.head.length + m :=
      (Nat.lt_or_ge k _).imp_right Nat.exists_eq_add_of_le
    · rw [List.take_append_of_le_length hk.le, decode_take_head _ _ _ hk]
    rw [List.take_length_add_append, decode_head _ _ _ (Instr.fieldsOk_selected hops),
      Instr.selected_form, if_pos hp] at hne ⊢
    obtain ⟨-, j, rest, hok⟩ | ⟨-, herr⟩ := readOperands_cases i.prefixes i.selected _
    · exact absurd hok (hne j rest)
    · exact herr
  · rcases h with h | h
    · exact if_pos h
    · exact Machine.decodeAt_of_length_le h

/-! ### Prefix bytes out of order (R77) -/

/-- A `0x66` or REX byte where the opcode should stand is refused. -/
theorem decodeOpcode_prefixByte {op : Byte} (p : Prefixes) (rest : List Byte)
    (h : op = oszByte ∨ isRex op = true) :
    decodeOpcode p (op :: rest) = .error .unsupportedPrefix := by
  simp [decodeOpcode, h]

/-- The prefixes end with a REX byte. -/
theorem readPrefixes_of_rex (osz : Bool) (r : Rex) (rest : List Byte) :
    readPrefixes (Prefixes.encode ⟨osz, some r⟩ ++ rest) = (⟨osz, some r⟩, rest) := by
  cases osz <;>
    simp [Prefixes.encode, readPrefixes, readOsz, readRex, isRex_append, rex_low_append, rex_ne_osz]

/-- A `0x66` or REX byte after a REX byte is refused. -/
theorem decode_prefixByte_after_rex {op : Byte} (osz : Bool) (r : Rex) (rest : List Byte)
    (h : op = oszByte ∨ isRex op = true) :
    decode (Prefixes.encode ⟨osz, some r⟩ ++ op :: rest) = .error .unsupportedPrefix := by
  rw [decode, readPrefixes_of_rex, decodeOpcode_prefixByte _ _ h]

/-- Settles O7: the prefixes end with a REX byte, and a second `0x66` stands where the opcode
should. -/
theorem prefixOutOfOrderIsRefused : Obligations.PrefixOutOfOrderIsRefused := fun r q bs =>
  ⟨decodeOpcode_prefixByte ⟨true, none⟩ bs (.inl rfl),
    decode_prefixByte_after_rex false r bs (.inl rfl),
    decode_prefixByte_after_rex false r bs (.inr (isRex_append q)),
    decode_prefixByte_after_rex true r bs (.inl rfl),
    decode_prefixByte_after_rex true r bs (.inr (isRex_append q))⟩

/-! ### The prefixes that a row takes (R95) -/

/-- The decoder's table allows what the table spelled out in `Form.takes` allows. -/
theorem admits_iff_takes (f : Form) (p : Prefixes) :
    f.allowance.admits p = true ↔ f.takes p := by
  obtain ⟨osz, rex⟩ := p
  cases rex with
  | none => cases f <;> simp only [Form.takes, Form.allowance] <;> revert osz <;> decide
  | some r => cases f <;> simp only [Form.takes, Form.allowance] <;> revert osz r <;> decide

/-- Settles O8: the decoder checks the prefixes once the row is known, against the same table; the
widest operand bytes are 8. -/
theorem prefixAllowanceTable : Obligations.PrefixAllowanceTable := by
  refine ⟨fun bs rest i h => ?_, fun i p rest hops => ?_⟩
  · obtain ⟨hwf, rfl⟩ := encodeOfDecodeIsTheBytesRead bs rest i h
    exact ⟨i.prefixes, rfl, (admits_iff_takes _ _).mp (wellFormed_iff.mp hwf).1⟩
  · rw [Instr.body_eq, List.append_assoc, List.append_assoc,
      decode_head _ _ _ (Instr.fieldsOk_selected hops), Instr.selected_form, ← admits_iff_takes]
    by_cases hp : i.form.allowance.admits p = true
    · rw [if_pos hp]
      have hcases := readOperands_cases p i.selected (i.operandBytes ++ rest)
      refine ⟨iff_of_false (fun h => ?_) (not_not_intro hp), fun _ hlen => ?_⟩
      · obtain ⟨-, j, rest', hok⟩ | ⟨-, herr⟩ := hcases
        · cases hok.symm.trans h
        · cases herr.symm.trans h
      · obtain ⟨-, j, rest', hok⟩ | ⟨hlt, -⟩ := hcases
        · obtain ⟨hform, hpre, -⟩ := readOperands_row (by rwa [Instr.selected_form]) hok
          exact ⟨j, rest', hok, hform.trans i.selected_form, hpre⟩
        · have hmax := i.selected.form.operandCount_le p
          rw [List.length_append] at hlt
          omega
    · rw [if_neg hp]
      exact ⟨iff_of_true rfl hp, fun h => absurd h hp⟩

/-! ### Unlisted ModRM bytes (R86, R88, R94) -/

/-- A ModRM byte that the row refuses is refused behind any prefixes. -/
theorem decode_of_selectRow_error {op : Byte} {mod : BitVec 2} {reg rm : BitVec 3} {c : FaultCode}
    (p : Prefixes) (rest : List Byte) (hop : hasModRM op = true)
    (h : selectRow op mod reg rm = .error c) :
    decode (p.encode ++ op :: modRM mod reg rm :: rest) = .error c := by
  obtain ⟨hosz, hrex, -, -⟩ := hasModRM_separate op hop
  refine decode_of_selectForm_error p hosz hrex (selectForm_modRM_error hop ?_)
  rw [modRM_mod, modRM_reg, modRM_rm, h]

/-- Settles O9: whatever the opcode, the row is selected before the prefixes are checked, and each
excluded combination is one that `selectRow` refuses. -/
theorem unlistedModRMIsRefused : Obligations.UnlistedModRMIsRefused := by
  intro p op mod reg rm rest hop h
  simp only [List.mem_cons, List.not_mem_nil, or_false] at hop
  have memory : ∀ f, (mod = 1 → rm = 4) → selectMemory f mod rm = .error .unsupportedModRM :=
    fun f hm => (selectMemory_eq_error f).mpr ⟨fun ⟨h1, h4⟩ => h4 (hm h1), rfl⟩
  have register : ∀ f, mod ≠ 3 → selectRegister f mod = .error .unsupportedModRM :=
    fun f hm => (selectRegister_eq_error f).mpr ⟨hm, rfl⟩
  rcases hop with rfl | rfl | rfl | rfl | rfl | rfl | rfl | rfl | rfl <;>
    refine decode_of_selectRow_error p rest rfl ?_
  · exact memory _ (by rintro rfl; simpa using h)
  · have h3 : mod ≠ 3 := by rintro rfl; simp at h
    exact (if_neg h3).trans (memory _ (by rintro rfl; simpa using h))
  · exact memory _ (by rintro rfl; simpa using h)
  · exact memory _ (by rintro rfl; simpa using h)
  · by_cases hreg : reg = 0
    · have h3 : mod ≠ 3 := by rintro rfl; simp [hreg] at h
      exact (if_neg (not_not_intro hreg)).trans
        ((if_neg h3).trans (memory _ (by rintro rfl; simpa [hreg] using h)))
    · exact if_pos hreg
  · exact register _ (by rintro rfl; simp at h)
  · by_cases hreg : reg = 5
    · exact (if_neg (not_not_intro hreg)).trans (register _ (by rintro rfl; simp [hreg] at h))
    · exact if_pos hreg
  · by_cases hreg : reg = 5
    · exact (if_neg (not_not_intro hreg)).trans (register _ (by rintro rfl; simp [hreg] at h))
    · exact if_pos hreg
  · by_cases hreg : reg = 7
    · exact (if_neg (not_not_intro hreg)).trans
        (memory _ (by rintro rfl; simpa [hreg] using h))
    · exact if_pos hreg

/-! ### Unlisted opcodes (R91 to R93) -/

/-- A REX byte is one of 40 to 4F (R78). -/
theorem isRex_iff : ∀ b : Byte, isRex b = true ↔ 0x40 ≤ b.toNat ∧ b.toNat ≤ 0x4F := by decide

/-- The opcodes of one byte with no ModRM byte are 50 to 5F, B8 to BF and four more (R91). -/
theorem oneByteForm_eq_none : ∀ b : Byte, b ≠ 0x74 → b ≠ 0xE9 → b ≠ 0xF4 → b ≠ 0xC3 →
    ¬ (0x50 ≤ b.toNat ∧ b.toNat ≤ 0x5F) → ¬ (0xB8 ≤ b.toNat ∧ b.toNat ≤ 0xBF) →
    oneByteForm b = none := by decide

theorem selectForm_unlisted {op : Byte} {bs : List Byte} (h0F : op ≠ 0x0F) (hF3 : op ≠ 0xF3)
    (hmod : hasModRM op = false) (hone : oneByteForm op = none) :
    selectForm op bs = .error .unsupportedOpcode := by
  rw [selectForm, if_neg h0F, if_neg hF3, hmod, hone]
  rfl

/-- The first byte that differs from a fixed opcode's ends the matching. -/
theorem matchBytes_mismatch {e b : Byte} (es bs : List Byte) (h : b ≠ e) :
    matchBytes (e :: es) (b :: bs) = .error .unsupportedOpcode :=
  if_neg h

/-- After `F3` the bytes of ENDBR64 are matched one at a time. -/
theorem decode_F3_mismatch {bs : List Byte} (p : Prefixes)
    (h : matchBytes [0x0F, 0x1E, 0xFA] bs = .error .unsupportedOpcode) :
    decode (p.encode ++ 0xF3 :: bs) = .error .unsupportedOpcode :=
  decode_of_selectForm_error p (by decide) (by decide)
    (by rw [selectForm, if_neg (by decide), if_pos rfl, h])

/-- Settles O10: opcode dispatch finds no row for such a byte, and the first mismatch ends the
matching of a longer opcode. -/
theorem unlistedOpcodeIsRefused : Obligations.UnlistedOpcodeIsRefused := by
  refine fun p b rest => ⟨fun hlist hpop hmov hosz hrange => ?_, fun h => ?_,
    fun h => decode_F3_mismatch p (matchBytes_mismatch _ _ h),
    fun h => decode_F3_mismatch p (matchBytes_mismatch [0xFA] rest h),
    fun h => decode_F3_mismatch p (matchBytes_mismatch [] rest h)⟩
  · have hrex : isRex b = false := Bool.eq_false_iff.mpr fun h => hrange ((isRex_iff b).mp h)
    simp only [List.mem_cons, List.not_mem_nil, or_false, not_or] at hlist
    obtain ⟨h88, h89, h8A, h8B, hC7, h31, h83, h81, h80, h74, hE9, h0F, hF3, hF4, hC3⟩ := hlist
    have hone : oneByteForm b = none := oneByteForm_eq_none b h74 hE9 hF4 hC3 hpop hmov
    have hmod : hasModRM b = false := by
      simp [hasModRM, h88, h89, h8A, h8B, hC7, h31, h83, h81, h80]
    exact decode_of_selectForm_error p hosz hrex (selectForm_unlisted h0F hF3 hmod hone)
  · refine decode_of_selectForm_error p (by decide) (by decide) ?_
    rw [selectForm, if_pos rfl, matchBytes_mismatch [] rest h]

/-! ### The 8-bit registers of the byte moves (R79; 10_state.md R38, R39) -/

/-- Both byte moves with base field 101 decode to the register of the same field, behind prefixes
that the rows allow. -/
theorem decode_byteMoves (p : Prefixes) (n : BitVec 3) (d8 : Byte) (rest : List Byte)
    (hp : Form.movR8M8.allowance.admits p = true) :
    decode (p.encode ++ 0x8A :: modRM 1 n 5 :: d8 :: rest) =
        .ok (.movR8M8 p (reg8 p n) (memRef p 5 d8), rest) ∧
      decode (p.encode ++ 0x88 :: modRM 1 n 5 :: d8 :: rest) =
        .ok (.movM8R8 p (memRef p 5 d8) (reg8 p n), rest) := by
  have h5 : (5 : BitVec 3) ≠ 4#3 := by decide
  exact ⟨(decode_head p ⟨.movR8M8, n, 5⟩ (d8 :: rest) h5).trans (if_pos hp),
    (decode_head p ⟨.movM8R8, n, 5⟩ (d8 :: rest) h5).trans (if_pos hp)⟩

/-- Settles O12: both moves decode to the register of the field, whose slot and byte are those of
`reg8`. -/
theorem byteRegisterMappingDependsOnRex : Obligations.ByteRegisterMappingDependsOnRex := by
  intro n r b d8 rest
  refine ⟨?_, ?_⟩
  · obtain ⟨hload, hstore⟩ := decode_byteMoves .bare n d8 rest rfl
    refine ⟨_, _, hload, hstore, ?_, ?_⟩
    · clear hload hstore
      revert n; decide
    · clear hload hstore
      revert n; decide
  · obtain ⟨hload, hstore⟩ := decode_byteMoves
      ⟨false, some (0#1 ++ BitVec.ofBool r ++ 0#1 ++ BitVec.ofBool b)⟩ n d8 rest
      (by revert r b; decide)
    refine ⟨_, _, _, hload, hstore, ?_, rfl⟩
    clear hload hstore
    revert n r b; decide

/-! ### Spelled-out words (R94) -/

/-- Settles O1: the decoder, run on each of the words. -/
theorem spelledWordsDecode : Obligations.SpelledWordsDecode := by
  refine ⟨?_, ?_, ?_, ?_, ?_, ?_, ?_, ?_, ?_, ?_, ?_⟩ <;> rfl

end Sys2Proof
end

section
/-! PROOFS. What a step keeps and what an instruction can change: the invariants (10_state.md R54,
20_memory.md R58), the frames of registers and memory, the equality latch, and the causes of faults
and of the end of a run. -/

namespace Sys2Proof.Machine

variable {s t u : State} {i : Instr}

/-! ### What is left by an instruction that takes no fault -/

/-- An instruction takes a fault, or its effect is committed at some `ip` with some status. -/
theorem Does.faults_or_commits (h : Does i s t) : (∃ c, t = s.afterFault c) ∨
    ∃ u target status, Effect i s u ∧ t = { u.commit i target with run := status } := by
  cases h with
  | outOfRange | eqUnset | branchOut => exact .inl ⟨_, rfl⟩
  | advances u h => exact .inr ⟨u, _, _, h, rfl⟩
  | jumps target h => exact .inr ⟨s, target, _, h, rfl⟩
  | halts h => subst h; exact .inr ⟨s, _, _, .hlt s, rfl⟩
  | returns h => subst h; exact .inr ⟨s, _, _, .ret s, rfl⟩

/-! ### The frame of memory (20_memory.md R60, R62, R65) -/

/-- What a store that passes its range check has done. -/
theorem State.memWrite_ok {w : Nat} {ea : Word} {v : BitVec w} (h : s.memWrite ea v = .ok t) :
    ea.toNat + w / 8 ≤ s.params.stackSize ∧
      t = { s with mem := s.mem.writeBytes ea.toNat (leBytes (w / 8) v.toNat) } := by
  obtain ⟨hle, e⟩ | ⟨-, e⟩ := s.memWrite_cases ea v <;> rw [e] at h <;> cases h
  exact ⟨hle, rfl⟩

/-- Memory `t` is memory `s`, or `s` with bytes stored where the instruction stores, within the
buffer. -/
def StoresInto (i : Instr) (s t : State) : Prop :=
  t.mem = s.mem ∨ ∃ base bs, i.stores s = some (base, bs.length) ∧
    base + bs.length ≤ s.params.stackSize ∧ t.mem = s.mem.writeBytes base bs

theorem storesInto_of_memWrite {w : Nat} {ea : Word} {v : BitVec w}
    (h : s.memWrite ea v = .ok t) (hst : i.stores s = some (ea.toNat, w / 8)) :
    StoresInto i s t := by
  obtain ⟨hle, rfl⟩ := State.memWrite_ok h
  exact .inr ⟨ea.toNat, leBytes (w / 8) v.toNat, by simpa using hst, by simpa using hle, rfl⟩

theorem Effect.storesInto (h : Effect i s u) : StoresInto i s u := by
  cases h with
  | movM8R8 pre mem reg s t h => exact storesInto_of_memWrite (ea := s.ea mem) h rfl
  | movM32R32 pre mem reg s t h => exact storesInto_of_memWrite (ea := s.ea mem) h rfl
  | movM32Imm32 pre mem imm s t h => exact storesInto_of_memWrite (ea := s.ea mem) h rfl
  | pushR64 pre r s t h =>
    have hstore : StoresInto (.pushR64 pre r) s t :=
      storesInto_of_memWrite (ea := s.readGpr rsp - 8) h rfl
    exact hstore
  | _ => exact .inl rfl

theorem Does.storesInto (h : Does i s t) : StoresInto i s t := by
  obtain ⟨c, rfl⟩ | ⟨u, target, status, heff, rfl⟩ := h.faults_or_commits
  · exact .inl rfl
  · simpa only [StoresInto, State.commit_mem] using heff.storesInto

/-- Settles O49: memory changes by a store at the instruction's address only, and a store leaves the
bytes outside it as they were. -/
theorem onlyStoredBytesChange : Obligations.OnlyStoredBytesChange := by
  intro i s t hwf h a hne
  obtain hmem | ⟨base, bs, hst, hle, hmem⟩ := (does_of_exec h).storesInto
  · exact absurd (by rw [hmem]) hne
  · rw [hmem, Memory.readByte_writeBytes bs hwf] at hne
    have ha : base ≤ a ∧ a < base + bs.length := by
      by_contra hout
      exact hne (dif_neg hout)
    exact ⟨base, bs.length, hst, ha.1, ha.2, hle⟩

/-! ### The frame of the registers (10_state.md R36) -/

theorem sameGprExcept_of_eq {ns : List RegNum} (hgpr : u.gpr = s.gpr) (hspare : u.spare = s.spare) :
    SameGprExcept ns s u :=
  ⟨fun n _ => State.readGpr_congr s u hgpr n, hspare⟩

theorem SameGprExcept.congr {ns : List RegNum} (h : SameGprExcept ns s u) (hgpr : t.gpr = u.gpr)
    (hspare : t.spare = u.spare) : SameGprExcept ns s t :=
  ⟨fun n hn => (State.readGpr_congr u t hgpr n).trans (h.slots n hn), hspare.trans h.spare⟩

/-- A write to one of the listed slots stays within the frame. -/
theorem SameGprExcept.writeGpr {ns : List RegNum} {n : RegNum} (h : SameGprExcept ns s u)
    (hn : n ∈ ns) (v : Word) : SameGprExcept ns s (u.writeGpr n v) :=
  ⟨fun m hm => (u.readGpr_writeGpr_ne n m v (ne_of_mem_of_not_mem hn hm).symm).trans
    (h.slots m hm), h.spare⟩

theorem sameGprExcept_of_memWrite {w : Nat} {ea : Word} {v : BitVec w} (ns : List RegNum)
    (h : s.memWrite ea v = .ok t) : SameGprExcept ns s t := by
  obtain ⟨-, rfl⟩ := State.memWrite_ok h
  exact sameGprExcept_of_eq rfl rfl

theorem Effect.sameGprExcept (h : Effect i s u) : SameGprExcept i.writes s u := by
  have unchanged : SameGprExcept i.writes s s := sameGprExcept_of_eq rfl rfl
  cases h with
  | movRmR | movRImm | movRmImm | movR8M8 | movR32M32 =>
    exact unchanged.writeGpr (List.mem_singleton.mpr rfl) _
  | xorRmR | subRmImm8 | subRmImm32 =>
    exact (unchanged.writeGpr (List.mem_singleton.mpr rfl) _).congr rfl rfl
  | movM8R8 | movM32R32 | movM32Imm32 => exact sameGprExcept_of_memWrite _ ‹_›
  | pushR64 pre r s t h =>
    exact (sameGprExcept_of_memWrite _ h).writeGpr (List.mem_singleton.mpr rfl) _
  | popR64 pre r s v =>
    exact (unchanged.writeGpr List.mem_cons_self _).writeGpr
      (List.mem_cons_of_mem _ (List.mem_singleton.mpr rfl)) v
  | cmpM8Imm8 => exact unchanged.congr rfl rfl
  | _ => exact unchanged

theorem Does.sameGprExcept (h : Does i s t) : SameGprExcept i.writes s t := by
  obtain ⟨c, rfl⟩ | ⟨u, target, status, heff, rfl⟩ := h.faults_or_commits
  · exact sameGprExcept_of_eq rfl rfl
  · exact heff.sameGprExcept.congr (u.commit_gpr i target) (u.commit_spare i target)

/-- Settles O48: each effect writes its destination slots, and the ways an instruction ends write
none. -/
theorem onlyDestinationRegistersChange : Obligations.OnlyDestinationRegistersChange :=
  fun _ _ _ h => (does_of_exec h).sameGprExcept

/-! ### The invariants (10_state.md R54, 20_memory.md R58) -/

theorem Does.params_eq (h : Does i s t) : t.params = s.params := by
  obtain ⟨c, rfl⟩ | ⟨u, target, status, heff, rfl⟩ := h.faults_or_commits
  · rfl
  · obtain ⟨-, -, -, -, -, -, -, -, hparams⟩ := heff.keeps
    exact (u.commit_params i target).trans hparams

/-- Settles O40: a run that goes on stands past an instruction that ended within the code, or at a
branch target that was checked. -/
theorem stepKeepsBoundaryInvariant : Obligations.StepKeepsBoundaryInvariant := by
  intro s t _ h
  obtain ⟨hrex, hosz⟩ := step_latches_clear h
  refine ⟨hrex, hosz, fun hrun => ?_⟩
  obtain ⟨hr, ⟨c, -, rfl⟩ | ⟨i, rest, hd, hdoes⟩⟩ := step_cases h
  · cases hrun
  · have hcode : t.code = s.code :=
      exec_keeps_code (s := s.latch i.prefixes) ((step_of_decode_ok hr hd).symm.trans h)
    rw [hcode]
    obtain hip | ⟨-, h0, h1⟩ := hdoes.ip_of_running hrun
    · obtain ⟨h0, h1⟩ := decodeAt_within hd
      rw [State.latch_ip] at hip
      omega
    · exact ⟨h0, h1⟩

/-- Settles O41: a store keeps the canonical form and lists no address but those it stores to, which
are within the buffer. -/
theorem stepKeepsMemoryInvariant : Obligations.StepKeepsMemoryInvariant := by
  intro s t hs h
  obtain ⟨-, ⟨c, -, rfl⟩ | ⟨i, rest, -, hdoes⟩⟩ := step_cases h
  · exact ⟨hs.canonical, hs.inBuffer⟩
  · have hparams : t.params = s.params := hdoes.params_eq
    obtain hmem | ⟨base, bs, -, hle, hmem⟩ := hdoes.storesInto <;> rw [State.latch_mem] at hmem
    · exact ⟨hmem ▸ hs.canonical, hmem ▸ hparams ▸ hs.inBuffer⟩
    · refine ⟨hmem ▸ Memory.wf_writeBytes bs hs.canonical, fun c hc => ?_⟩
      rw [hparams]
      obtain ⟨-, hlt⟩ | hc := Memory.mem_writeBytes (hmem ▸ hc)
      · exact hlt.trans_le hle
      · exact hs.inBuffer c hc

/-! ### Faults and ends of the run (60_exceptions.md R131, R145) -/

/-- Settles O44: the faulting cases of `Does` name the causes, and no other case leaves a fault. -/
theorem executeFaultsHaveTheirCauses : Obligations.ExecuteFaultsHaveTheirCauses := by
  intro i s t c a hr h hf
  cases does_of_exec h with
  | outOfRange base n hacc hlt => cases hf; exact ⟨rfl, base, n, hacc, hlt⟩
  | eqUnset hform he => cases hf; exact ⟨rfl, hform, he⟩
  | branchOut d hd hform hout => cases hf; exact ⟨rfl, d, hd, hform, hout⟩
  | advances u heff =>
    obtain ⟨-, -, -, hrun, -⟩ := heff.keeps
    rw [State.commit_run, hrun, hr] at hf
    cases hf
  | jumps target => rw [State.commit_run, hr] at hf; cases hf
  | halts | returns => cases hf

/-- Which instruction ends a run, and how. -/
theorem Does.ended_iff (h : Does i s t) (hr : s.run = .running) :
    (t.run = .halted ↔ i = .hlt) ∧ (t.run = .returned ↔ i = .ret) := by
  have goesOn : t.run ≠ .halted → t.run ≠ .returned → i ≠ .hlt → i ≠ .ret →
      (t.run = .halted ↔ i = .hlt) ∧ (t.run = .returned ↔ i = .ret) :=
    fun h1 h2 h3 h4 => ⟨iff_of_false h1 h3, iff_of_false h2 h4⟩
  cases h with
  | outOfRange base n hacc =>
    exact goesOn nofun nofun (by rintro rfl; cases hacc) (by rintro rfl; cases hacc)
  | eqUnset hform =>
    exact goesOn nofun nofun (by rintro rfl; simp [Instr.form] at hform)
      (by rintro rfl; simp [Instr.form] at hform)
  | branchOut d hd => exact goesOn nofun nofun (by rintro rfl; cases hd) (by rintro rfl; cases hd)
  | advances u h hf =>
    obtain ⟨-, -, -, hrun, -⟩ := h.keeps
    obtain ⟨hhlt, hret, -⟩ := hf
    exact goesOn (by simp [hrun, hr]) (by simp [hrun, hr]) (by rintro rfl; exact hhlt rfl)
      (by rintro rfl; exact hret rfl)
  | jumps target h hf =>
    exact goesOn (by simp [hr]) (by simp [hr]) (by rintro rfl; simp [Instr.form] at hf)
      (by rintro rfl; simp [Instr.form] at hf)
  | halts h => exact ⟨iff_of_true rfl h, iff_of_false nofun (by simp [h])⟩
  | returns h => exact ⟨iff_of_false nofun (by simp [h]), iff_of_true rfl h⟩

/-- Settles O45: a decode fault ends in neither status, and of the instructions HLT and RET alone
do. -/
theorem onlyTerminatorsEndNormally : Obligations.OnlyTerminatorsEndNormally := by
  intro s t hr h
  obtain ⟨-, ⟨c, hd, rfl⟩ | ⟨i, rest, hd, hdoes⟩⟩ := step_cases h
  · simp [hd]
  · obtain ⟨hhlt, hret⟩ := hdoes.ended_iff hr
    rw [hhlt, hret, hd]
    simp

/-! ### The equality latch (10_state.md R48) -/

/-- What an effect does to the latch. -/
theorem Effect.eq_latch (h : Effect i s u) :
    (i.form ∈ [.xorRmR, .subRmImm8, .subRmImm32] → u.eq = .unset) ∧
      (i.form = .cmpM8Imm8 → ∃ b, u.eq = .set b) ∧
      (i.form ∉ [.xorRmR, .subRmImm8, .subRmImm32, .cmpM8Imm8] → u.eq = s.eq) := by
  cases h with
  | movM8R8 | movM32R32 | movM32Imm32 | pushR64 =>
    obtain ⟨-, rfl⟩ := State.memWrite_ok ‹_›
    simp [Instr.form]
  | _ => simp [Instr.form]

/-- XOR and SUB complete from every state. -/
theorem exec_clears_eq (hf : i.form ∈ [.xorRmR, .subRmImm8, .subRmImm32])
    (h : exec i s = .next t) : t.eq = .unset := by
  cases i with
  | xorRmR | subRmImm8 | subRmImm32 =>
    cases h
    rw [State.commit_eq, State.clearEq_eq]
  | _ => simp [Instr.form] at hf

/-- Settles O46: XOR and SUB complete from every state; a CMP that leaves the run running has had
its effect; every other effect and every fault leave the latch. -/
theorem equalityLatchWriters : Obligations.EqualityLatchWriters := by
  intro i s t _ h
  refine ⟨fun hf => exec_clears_eq hf h, fun hf hrun => ?_, fun hf => ?_⟩
  · obtain ⟨c, rfl⟩ | ⟨u, target, status, heff, rfl⟩ := (does_of_exec h).faults_or_commits
    · cases hrun
    · obtain ⟨-, hset, -⟩ := heff.eq_latch
      exact (u.commit_eq i target).symm ▸ hset hf
  · obtain ⟨c, rfl⟩ | ⟨u, target, status, heff, rfl⟩ := (does_of_exec h).faults_or_commits
    · rfl
    · obtain ⟨-, -, hsame⟩ := heff.eq_latch
      exact (u.commit_eq i target).trans (hsame hf)

end Sys2Proof.Machine
end

section
/-! PROOFS. The stack memory (20_memory.md): the effective address, and what a read gives and a
write leaves, as little-endian bytes. -/

namespace Sys2Proof.Machine

variable {s t : State} {w : Nat} {ea : Word} {v : BitVec w}

/-! ### The effective address (R59) -/

/-- The effective address as a sum of integers. -/
theorem State.ea_eq_ofInt (s : State) (m : MemRef) :
    s.ea m = BitVec.ofInt 64 ((s.readGpr m.base).toNat + m.d8.toInt) := by
  rw [BitVec.ofInt_add, BitVec.ofInt_natCast, BitVec.ofNat_toNat, BitVec.setWidth_eq]
  rfl

/-- Settles O16: the integer that the address is made of, modulo 2^64. -/
theorem effectiveAddressIsBasePlusDisp : Obligations.EffectiveAddressIsBasePlusDisp := by
  intro s m
  rw [s.ea_eq_ofInt, BitVec.toNat_ofInt, Int.toNat_of_nonneg (Int.emod_nonneg _ (by decide))]
  rfl

/-! ### Bytes of a value (R63) -/

theorem extractLsb'_byte (v : BitVec w) (k : Nat) :
    v.extractLsb' (8 * k) 8 = BitVec.ofNat 8 (v.toNat / 256 ^ k) := by
  rw [BitVec.extractLsb', Nat.shiftRight_eq_div_pow, Nat.pow_mul]

/-- The bytes in memory determine a value of whole bytes. -/
theorem StoredAt.unique {v' : BitVec w} {base : Nat} (hw : 8 ∣ w) (h : StoredAt base v t)
    (h' : StoredAt base v' t) : v = v' := by
  refine BitVec.eq_of_getLsbD_eq fun j hj => ?_
  have hbyte : v.extractLsb' (8 * (j / 8)) 8 = v'.extractLsb' (8 * (j / 8)) 8 :=
    (h _ (by omega)).symm.trans (h' _ (by omega))
  have hbit := congrArg (BitVec.getLsbD · (j % 8)) hbyte
  simpa [Nat.mod_lt j (by decide : 8 > 0), Nat.div_add_mod] using hbit

/-- Byte `k` of a value in memory, as a value of one byte. -/
theorem StoredAt.byte {base k : Nat} (h : StoredAt base v t) (hk : k < w / 8) :
    StoredAt (base + k) (v.extractLsb' (8 * k) 8) t := by
  intro j hj
  obtain rfl : j = 0 := by omega
  rw [Nat.add_zero, h k hk]
  exact BitVec.extractLsb'_eq_self.symm

/-! ### Reads and writes (R60 to R62, R64) -/

/-- A read gives the value whose bytes stand at the address. -/
theorem storedAt_of_memRead (h : s.memRead ea w = .ok v) : StoredAt ea.toNat v s := by
  obtain ⟨-, e⟩ | ⟨-, e⟩ := s.memRead_cases ea w <;> rw [e] at h <;> cases h
  intro k hk
  have hlen : (s.mem.readBytes ea.toNat (w / 8)).length = w / 8 := Memory.readBytes_length _
  have hlt := leValue_lt (s.mem.readBytes ea.toNat (w / 8))
  rw [hlen] at hlt
  rw [extractLsb'_byte, toNat_ofNat_of_lt w (Nat.mul_div_le w 8) hlt,
    leValue_byte _ k (by rwa [hlen]), Memory.readBytes_getElem]

/-- In range, the value whose bytes stand at the address is the one that is read. -/
theorem memRead_of_storedAt (hw : 8 ∣ w) (h : StoredAt ea.toNat v s)
    (hle : ea.toNat + w / 8 ≤ s.params.stackSize) : s.memRead ea w = .ok v := by
  have hread := s.memRead_of_le ea w hle
  rw [hread, (storedAt_of_memRead hread).unique hw h]

/-- A write leaves the bytes of its value at the address. -/
theorem storedAt_of_memWrite (hwf : s.mem.wf = true) (h : s.memWrite ea v = .ok t) :
    StoredAt ea.toNat v t := by
  obtain ⟨-, rfl⟩ := State.memWrite_ok h
  intro k hk
  have hlen : (leBytes (w / 8) v.toNat).length = w / 8 := leBytes_length _ _
  rw [Memory.readByte_writeBytes _ hwf, dif_pos (by omega), leBytes_getElem,
    Nat.add_sub_cancel_left, extractLsb'_byte]

/-- A write leaves every byte outside its own as it was. -/
theorem sameMemoryOutside_of_memWrite (hwf : s.mem.wf = true) (h : s.memWrite ea v = .ok t) :
    SameMemoryOutside ea.toNat (w / 8) s t := by
  obtain ⟨-, rfl⟩ := State.memWrite_ok h
  intro a ha
  rw [Memory.readByte_writeBytes _ hwf, dif_neg (by rwa [leBytes_length])]

/-- Settles O17: a read in range gives the value of the bytes at the address. -/
theorem memReadIsLittleEndian : Obligations.MemReadIsLittleEndian :=
  fun s ea w _ => ⟨fun hle => ⟨_, s.memRead_of_le ea w hle,
    storedAt_of_memRead (s.memRead_of_le ea w hle)⟩, s.memRead_of_lt ea w⟩

/-- Settles O18: a write in range stores the bytes of the value and keeps the canonical form. -/
theorem memWriteIsLittleEndian : Obligations.MemWriteIsLittleEndian := by
  refine fun s ea w v _ hwf => ⟨fun hle => ?_, s.memWrite_of_lt ea v⟩
  have h := s.memWrite_of_le ea v hle
  exact ⟨_, h, storedAt_of_memWrite hwf h, sameMemoryOutside_of_memWrite hwf h, rfl,
    Memory.wf_writeBytes _ hwf⟩

/-- Settles O19: after the write the bytes of the value stand at the address, and a read gives the
value that they determine. -/
theorem readAfterWriteGivesTheBytes : Obligations.ReadAfterWriteGivesTheBytes := by
  intro s t ea w v hw hwf h
  have hst := storedAt_of_memWrite hwf h
  obtain ⟨hle, rfl⟩ := State.memWrite_ok h
  refine ⟨memRead_of_storedAt (by omega) hst hle, fun k a hk ha => ?_⟩
  refine memRead_of_storedAt (by decide) (ha ▸ hst.byte hk) ?_
  rw [ha]
  exact (by omega : ea.toNat + k + 8 / 8 ≤ ea.toNat + w / 8).trans hle

end Sys2Proof.Machine
end

section
/-! PROOFS. The results and frames of the instructions that move data or compute, and complete
(40_data_movement.md, 41_arith_logic.md). -/

namespace Sys2Proof.Machine

variable {s t u : State} {i : Instr} {w : Nat} {target : Int}

/-! ### Claims about a state that speak of its registers or its memory alone -/

theorem ViewWritten.congr {r : RegId w} {v : BitVec w} (h : ViewWritten r v s u)
    (hgpr : t.gpr = u.gpr) : ViewWritten r v s t := fun k hk => by
  rw [State.readGpr_congr u t hgpr]
  exact h k hk

theorem StoredAt.congr {base : Nat} {v : BitVec w} (h : StoredAt base v u) (hmem : t.mem = u.mem) :
    StoredAt base v t := fun k hk => by
  rw [hmem]
  exact h k hk

theorem SameMemoryOutside.congr {base n : Nat} (h : SameMemoryOutside base n s u)
    (hmem : t.mem = u.mem) : SameMemoryOutside base n s t := fun a ha => by
  rw [hmem]
  exact h a ha

theorem sameMemory_of_eq (hmem : t.mem = s.mem) : SameMemory s t := fun a => by rw [hmem]

/-! ### Completing with an effect (40_data_movement.md R105) -/

/-- An instruction that completes leaves the registers, the latch and the memory of its effect. -/
theorem Effect.completes (h : Effect i s u) (e : exec i s = complete i u)
    (hL : s.ip + i.length = target) :
    ∃ t, exec i s = .next t ∧ t.gpr = u.gpr ∧ t.spare = u.spare ∧ t.eq = u.eq ∧ t.mem = u.mem ∧
      CompletedAt i s t target := by
  obtain ⟨hip, -, -, hrun, htrace, -, hcode, hsink, hparams⟩ := h.keeps
  rw [complete_eq, hip, hL] at e
  exact ⟨_, e, u.commit_gpr i _, u.commit_spare i _, u.commit_eq i _, u.commit_mem i _,
    completedAt_commit i target hrun htrace hsink hparams hcode⟩

/-- An instruction whose effect on registers is one write through an identifier. -/
theorem Effect.writes_view {r : RegId w} {v : BitVec w} (h : Effect i s u)
    (e : exec i s = complete i u) (hL : s.ip + i.length = target)
    (hgpr : u.gpr = (s.writeReg r v).gpr) (hmem : u.mem = s.mem) (h32 : w = 32 → r.offset = 0) :
    ∃ t, exec i s = .next t ∧ ViewWritten r v s t ∧ SameGprExcept [r.slot] s t ∧ t.eq = u.eq ∧
      SameMemory s t ∧ CompletedAt i s t target := by
  obtain ⟨-, -, -, -, -, hspare, -, -, -⟩ := h.keeps
  obtain ⟨t, ht, hgpr', hspare', heq, hmem', hc⟩ := h.completes e hL
  exact ⟨t, ht, (viewWritten_writeReg r v s h32).congr (hgpr'.trans hgpr),
    (sameGprExcept_writeReg r v s).congr (hgpr'.trans hgpr) (hspare'.trans hspare), heq,
    sameMemory_of_eq (hmem'.trans hmem), hc⟩

/-- An instruction whose effect is one store. -/
theorem Effect.stores_value {ea : Word} {v : BitVec w} (h : Effect i s u)
    (hwf : s.mem.wf = true) (hst : s.memWrite ea v = .ok u) (e : exec i s = complete i u)
    (hL : s.ip + i.length = target) :
    ∃ t, exec i s = .next t ∧ StoredAt ea.toNat v t ∧ SameMemoryOutside ea.toNat (w / 8) s t ∧
      SameGprExcept [] s t ∧ t.eq = s.eq ∧ CompletedAt i s t target := by
  obtain ⟨t, ht, hgpr, hspare, heq, hmem, hc⟩ := h.completes e hL
  refine ⟨t, ht, (storedAt_of_memWrite hwf hst).congr hmem,
    (sameMemoryOutside_of_memWrite hwf hst).congr hmem,
    (sameGprExcept_of_memWrite [] hst).congr hgpr hspare, heq.trans ?_, hc⟩
  obtain ⟨-, rfl⟩ := State.memWrite_ok hst
  rfl

/-! ### MOV, XOR and SUB on registers (R106 to R108, R117 to R119) -/

/-- Settles O20: the move is a write of the source's view. -/
theorem movRegisterCopiesView : Obligations.MovRegisterCopiesView := fun pre w rm reg s =>
  (Effect.movRmR pre w rm reg s).writes_view rfl (by simp only [Instr.length]; omega) rfl rfl
    fun _ => rfl

/-- Settles O21: both moves are a write of the immediate; truncation keeps the number modulo 2^w,
and sign extension the signed number. -/
theorem movImmediateWritesValue : Obligations.MovImmediateWritesValue := by
  refine ⟨fun pre w r imm s => ?_, fun pre w rm imm s => ?_⟩
  · rw [BitVec.ofNat_toNat]
    exact (Effect.movRImm pre w r imm s).writes_view rfl (by simp only [Instr.length]; omega) rfl
      rfl fun _ => rfl
  · have himm : (w.modRMImmBytes : Int) = if w = .w16 then 2 else 4 := by cases w <;> rfl
    exact (Effect.movRmImm pre w rm imm s).writes_view rfl
      (by simp only [Instr.length, ← himm]; omega) rfl rfl fun _ => rfl

/-- A read of the written view gives the written value. -/
theorem ViewWritten.readReg {r : RegId w} {v : BitVec w} (h : ViewWritten r v s t)
    (hr : 8 * r.offset + w ≤ 64) : t.readReg r = v := by
  refine BitVec.eq_of_getLsbD_eq fun k hk => ?_
  rw [State.readReg, getLsbD_viewOf r _ k hk, h _ (by omega), if_pos (by omega),
    Nat.add_sub_cancel_left]

theorem Width.bits_le (w : Width) : w.bits ≤ 64 := by cases w <;> decide

/-- Settles O22: the exclusive or is written and the latch cleared; of equal operands it is 0. -/
theorem xorWritesExclusiveOr : Obligations.XorWritesExclusiveOr := by
  intro pre w rm reg s
  obtain ⟨t, ht, hview, hframe, heq, hmem, hc⟩ :=
    (Effect.xorRmR pre w rm reg s).writes_view (target := s.ip + pre.count + 2)
      (r := w.reg rm) (v := s.readReg (w.reg rm) ^^^ s.readReg (w.reg reg)) rfl
      (by simp only [Instr.length]; omega) rfl rfl fun _ => rfl
  refine ⟨t, ht, hview, ?_, hframe, heq, hmem, hc⟩
  rintro rfl
  rw [hview.readReg (by simpa [Width.reg] using Width.bits_le w), BitVec.xor_self]
  rfl

/-- A difference with a sign-extended number, in the integers. -/
theorem sub_signExtend {n : Nat} (x : BitVec w) (d : BitVec n) :
    x - d.signExtend w = BitVec.ofInt w (x.toNat - d.toInt) := by
  rw [Int.sub_eq_add_neg, BitVec.ofInt_add, BitVec.ofInt_natCast, BitVec.ofNat_toNat,
    BitVec.setWidth_eq, BitVec.ofInt_neg, BitVec.sub_eq_add_neg]
  rfl

/-- Settles O23: the difference with the sign-extended immediate is written and the latch cleared.
-/
theorem subWritesDifference : Obligations.SubWritesDifference := by
  refine ⟨fun pre w rm imm s => ?_, fun pre w rm imm s => ?_⟩
  · rw [← sub_signExtend]
    exact (Effect.subRmImm8 pre w rm imm s).writes_view rfl (by simp only [Instr.length]; omega)
      rfl rfl fun _ => rfl
  · rw [← sub_signExtend]
    exact (Effect.subRmImm32 pre w rm imm s).writes_view rfl (by simp only [Instr.length]; omega)
      rfl rfl fun _ => rfl

/-! ### Loads, stores and CMP (R109 to R113, R120) -/

/-- A read of one byte in range gives that byte. -/
theorem memRead_byte {ea : Word} (hle : ea.toNat + 1 ≤ s.params.stackSize) :
    s.memRead ea 8 = .ok (s.mem.readByte ea.toNat) := by
  refine memRead_of_storedAt (by decide) (fun k hk => ?_) hle
  obtain rfl : k = 0 := by omega
  exact BitVec.extractLsb'_eq_self.symm

/-- Settles O24: the value read is written through the destination's identifier. -/
theorem loadWritesMemoryValue : Obligations.LoadWritesMemoryValue := by
  refine ⟨fun pre reg mem s hle => ?_, fun pre reg mem s hle => ?_⟩
  · have hread := memRead_byte hle
    exact (Effect.movR8M8 pre reg mem s _ hread).writes_view (State.load_of_ok _ hread)
      (by simp only [Instr.length]; omega) rfl rfl (fun h => absurd h (by decide))
  · have hread := s.memRead_of_le (s.ea mem) 32 hle
    obtain ⟨t, ht, hview, hrest⟩ := (Effect.movR32M32 pre reg mem s _ hread).writes_view
      (target := s.ip + pre.count + 3) (r := reg32 reg) (State.load_of_ok _ hread)
      (by simp only [Instr.length]; omega) rfl rfl fun _ => rfl
    exact ⟨t, _, ht, storedAt_of_memRead hread, hview, hrest⟩

/-- Settles O25: each store writes its value at the effective address. -/
theorem storeWritesMemoryBytes : Obligations.StoreWritesMemoryBytes := by
  refine ⟨fun pre mem reg s hwf hle => ?_, fun pre mem reg s hwf hle => ?_,
    fun pre mem imm s hwf hle => ?_⟩
  · have hst := s.memWrite_of_le (s.ea mem) (s.readReg reg.id) hle
    exact (Effect.movM8R8 pre mem reg s _ hst).stores_value hwf hst (State.store_of_ok _ hst)
      (by simp only [Instr.length]; omega)
  · have hst := s.memWrite_of_le (s.ea mem) (s.readReg (reg32 reg)) hle
    exact (Effect.movM32R32 pre mem reg s _ hst).stores_value hwf hst (State.store_of_ok _ hst)
      (by simp only [Instr.length]; omega)
  · have hst := s.memWrite_of_le (s.ea mem) imm hle
    exact (Effect.movM32Imm32 pre mem imm s _ hst).stores_value hwf hst (State.store_of_ok _ hst)
      (by simp only [Instr.length]; omega)

/-- Settles O26: CMP changes the latch alone, to the comparison of the byte read. -/
theorem compareSetsEqualityLatch : Obligations.CompareSetsEqualityLatch := by
  intro pre mem imm s hle
  have hread := memRead_byte hle
  obtain ⟨t, ht, hgpr, hspare, heq, hmem, hc⟩ :=
    (Effect.cmpM8Imm8 pre mem imm s _ hread).completes (target := s.ip + pre.count + 4)
      (State.load_of_ok _ hread) (by simp only [Instr.length]; omega)
  exact ⟨t, ht, heq, sameGprExcept_of_eq hgpr hspare, sameMemory_of_eq hmem, hc⟩

/-! ### PUSH and POP (R114, R115) -/

/-- Settles O27: PUSH stores the register as it was and then writes rsp. -/
theorem pushStoresRegister : Obligations.PushStoresRegister := by
  intro pre r s hwf hle
  have hst := s.memWrite_of_le (s.readGpr rsp - 8) (s.readGpr r) hle
  obtain ⟨t, ht, hgpr, hspare, heq, hmem, hc⟩ :=
    (Effect.pushR64 pre r s _ hst).completes (target := s.ip + pre.count + 1)
      (State.store_of_ok _ hst) (by simp only [Instr.length]; omega)
  refine ⟨t, ht, ?_, (storedAt_of_memWrite hwf hst).congr hmem,
    (sameMemoryOutside_of_memWrite hwf hst).congr hmem,
    ((sameGprExcept_of_memWrite [4] hst).writeGpr (List.mem_singleton.mpr rfl) _).congr hgpr hspare,
    heq, hc⟩
  exact (State.readGpr_congr _ t hgpr 4).trans (State.readGpr_writeGpr_same _ 4 _)

/-- Settles O28: POP writes rsp and then the destination, so that for rsp the loaded value stands.
-/
theorem popLoadsRegister : Obligations.PopLoadsRegister := by
  intro pre r s hle
  have hread := s.memRead_of_le (s.readGpr rsp) 64 hle
  obtain ⟨t, ht, hgpr, hspare, heq, hmem, hc⟩ :=
    (Effect.popR64 pre r s _ hread).completes (target := s.ip + pre.count + 1)
      (State.load_of_ok _ hread) (by simp only [Instr.length]; omega)
  have hr := (State.readGpr_congr _ t hgpr r).trans (State.readGpr_writeGpr_same _ r _)
  refine ⟨t, ht, ?_, fun hne => ?_, ?_, heq, sameMemory_of_eq hmem, hc⟩
  · rw [hr]
    exact storedAt_of_memRead hread
  · rw [State.readGpr_congr _ t hgpr 4, State.readGpr_writeGpr_ne _ _ _ _ hne.symm]
    exact State.readGpr_writeGpr_same _ 4 _
  · exact (((sameGprExcept_of_eq rfl rfl).writeGpr (List.mem_cons_self (a := 4)) _).writeGpr
      (List.mem_cons_of_mem _ (List.mem_singleton.mpr rfl)) _).congr hgpr hspare

/-- Settles O29: POP reads the bytes that PUSH has stored, at the rsp that PUSH has left, and these
determine the register. -/
theorem pushThenPopRestoresRegisters : Obligations.PushThenPopRestoresRegisters := by
  intro pre pre' r s hwf hle
  obtain ⟨t, ht, hrsp, hst, -, hframe, -, hc⟩ := pushStoresRegister pre r s hwf hle
  obtain ⟨u, hu, hld, hrsp', hframe', -, hmem, -⟩ := popLoadsRegister pre' r t
    (by rw [hrsp, hc.inputs.params]; exact hle)
  rw [hrsp] at hld
  have hr : u.readGpr r = s.readGpr r := hld.unique (by decide) hst
  refine ⟨t, u, ht, hu, ⟨fun n _ => ?_, hframe'.spare.trans hframe.spare⟩, fun k hk => ?_⟩
  · by_cases hnr : n = r
    · rw [hnr, hr]
    by_cases hn4 : n = 4
    · subst hn4
      rw [hrsp' (Ne.symm hnr), hrsp, BitVec.sub_add_cancel]
    · rw [hframe'.slots n (by simpa only [List.mem_cons, List.not_mem_nil, or_false, not_or] using
          ⟨hn4, hnr⟩), hframe.slots n (mt List.mem_singleton.mp hn4)]
  · rw [hmem, hst k hk]

end Sys2Proof.Machine
end

section
/-! PROOFS. The control instructions (42_control.md), accesses out of range and instructions that
make none (20_memory.md R60, R65), and the parameter ZEXT32 (10_state.md R37). -/

namespace Sys2Proof.Machine

variable {s t u : State} {i : Instr} {w : Nat} {target : Int}

/-! ### Branches and ends of the run (42_control.md R121 to R127) -/

theorem sameData_commit (s : State) (i : Instr) (target : Int) : SameData s (s.commit i target) :=
  ⟨sameGprExcept_of_eq (s.commit_gpr i target) (s.commit_spare i target), s.commit_eq i target,
    sameMemory_of_eq (s.commit_mem i target)⟩

theorem completedAt_commit_self (s : State) (i : Instr) (target : Int) :
    CompletedAt i s (s.commit i target) target :=
  completedAt_commit i target rfl rfl rfl rfl rfl

/-- A branch goes to a target in `[0, len]` and faults at any other. -/
theorem branch_spec (i : Instr) (d : Int) (s : State) (hL : s.ip + i.length + d = target) :
    (0 ≤ target → target ≤ s.code.length →
      ∃ t, branch i d s = .next t ∧ SameData s t ∧ CompletedAt i s t target) ∧
    (target < 0 ∨ s.code.length < target →
      branch i d s = .next (s.afterFault .branchOutOfRange)) := by
  obtain ⟨hout, hb⟩ | ⟨h0, h1, hb⟩ := branch_cases i d s <;> rw [hL] at *
  · exact ⟨by omega, fun _ => hb⟩
  · exact ⟨fun _ _ => ⟨_, hb, sameData_commit s i target, completedAt_commit_self s i target⟩,
      by omega⟩

/-- JE by the value of the latch. -/
theorem jumpIfEqual_spec (i : Instr) (d : Int) (s : State) :
    (s.eq = .unset → jumpIfEqual i d s = .next (s.afterFault .eqUnset)) ∧
    (s.eq = .set false → jumpIfEqual i d s = complete i s) ∧
    (s.eq = .set true → jumpIfEqual i d s = branch i d s) := by
  refine ⟨fun h => ?_, fun h => ?_, fun h => ?_⟩ <;> rw [jumpIfEqual, h]
  rfl

/-- Settles O31: each value of the latch has its one way, and the taken branch checks its target. -/
theorem jumpIfEqualReadsLatch : Obligations.JumpIfEqualReadsLatch := by
  intro i len d s hi
  have hje : exec i s = jumpIfEqual i d s ∧ s.ip + i.length = s.ip + len := by
    obtain ⟨cb, rfl, rfl, rfl⟩ | ⟨cd, rfl, rfl, rfl⟩ := hi <;> exact ⟨rfl, rfl⟩
  obtain ⟨hexec, hL⟩ := hje
  obtain ⟨hunset, hfalse, htrue⟩ := jumpIfEqual_spec i d s
  obtain ⟨hin, hout⟩ := branch_spec i d s (congrArg (· + d) hL)
  rw [hexec]
  refine ⟨hunset, fun h => ⟨_, hfalse h, sameData_commit s i _, ?_⟩,
    fun h => htrue h ▸ hin, fun h => htrue h ▸ hout⟩
  rw [← hL]
  exact completedAt_commit_self s i _

/-- Settles O32: JMP is a branch of length 5. -/
theorem jumpGoesToTarget : Obligations.JumpGoesToTarget :=
  fun cd s => branch_spec (.jmpRel32 cd) cd.toInt s rfl

/-- Settles O33: ENDBR64 commits on the state it found. -/
theorem endbrOnlyAdvances : Obligations.EndbrOnlyAdvances :=
  fun s => ⟨_, rfl, sameData_commit s .endbr64 _, completedAt_commit_self s .endbr64 _⟩

/-- The end of a run, but for the status a completion at the same `ip`. -/
theorem endRun_spec (i : Instr) (status : RunStatus) (s : State) :
    ∃ t, endRun i status s = .next t ∧ t.run = status ∧ SameData s t ∧
      CompletedAt i s { t with run := s.run } s.ip := by
  obtain ⟨hgpr, heq, hmem⟩ := sameData_commit s i s.ip
  obtain ⟨hip, -, hrex, hosz, htrace, hinputs⟩ := completedAt_commit_self s i s.ip
  exact ⟨_, rfl, rfl, ⟨⟨hgpr.slots, hgpr.spare⟩, heq, hmem⟩, hip, rfl, hrex, hosz, htrace,
    hinputs.code, hinputs.sinkAttached, hinputs.params⟩

/-- Settles O34: both end the run where it stands. -/
theorem terminatorsEndTheRun : Obligations.TerminatorsEndTheRun :=
  fun s => ⟨endRun_spec .hlt .halted s, endRun_spec .ret .returned s⟩

/-! ### Accesses out of range (20_memory.md R60) -/

theorem State.load_of_lt {ea : Word} (k : BitVec w → Result)
    (h : s.params.stackSize < ea.toNat + w / 8) :
    s.load ea w k = .next (s.afterFault .stackOutOfRange) := by
  rw [State.load_eq, if_neg (by omega)]

theorem State.store_of_lt {ea : Word} {v : BitVec w} (k : State → Result)
    (h : s.params.stackSize < ea.toNat + w / 8) :
    s.store ea v k = .next (s.afterFault .stackOutOfRange) := by
  rw [State.store_eq, if_neg (by omega)]

/-- The check comes before any other effect, whatever the instruction. -/
theorem exec_of_out_of_range {base n : Nat} (h : i.accesses s = some (base, n))
    (hlt : s.params.stackSize < base + n) : exec i s = .next (s.afterFault .stackOutOfRange) := by
  cases i with
  | movR8M8 | movR32M32 | cmpM8Imm8 | popR64 => cases h; exact State.load_of_lt _ hlt
  | movM8R8 | movM32R32 | movM32Imm32 | pushR64 => cases h; exact State.store_of_lt _ hlt
  | _ => cases h

/-! ### Changes of the state that an instruction carries along -/

/-- `f` changes a part of the state that no completion, branch or fault computes with, and that each
of them keeps; it may be a part that memory accesses or 32-bit register writes depend on. -/
structure Carried (f : State → State) : Prop where
  gpr : ∀ s, (f s).gpr = s.gpr
  ip : ∀ s, (f s).ip = s.ip
  eq : ∀ s, (f s).eq = s.eq
  code : ∀ s, (f s).code = s.code
  writeGpr : ∀ s n v, (f s).writeGpr n v = f (s.writeGpr n v)
  clearEq : ∀ s, (f s).clearEq = f s.clearEq
  compareEq : ∀ s v imm, (f s).compareEq v imm = f (s.compareEq v imm)
  commit : ∀ s i target, (f s).commit i target = f (s.commit i target)
  setRun : ∀ s status, { f s with run := status } = f { s with run := status }
  afterFault : ∀ s c, (f s).afterFault c = f (s.afterFault c)

/-- Writes through identifiers of width `w` carry the changed part along. -/
def CarriesWrites (f : State → State) (w : Nat) : Prop :=
  ∀ s (r : RegId w) v, (f s).writeReg r v = f (s.writeReg r v)

/-- Memory accesses carry the changed part along. -/
structure CarriesAccesses (f : State → State) : Prop where
  mem : ∀ s, (f s).mem = s.mem
  stackSize : ∀ s, (f s).params.stackSize = s.params.stackSize
  setMem : ∀ s m, { f s with mem := m } = f { s with mem := m }

section

variable {f : State → State} (h : Carried f) (s : State)
include h

theorem Carried.readGpr (n : RegNum) : (f s).readGpr n = s.readGpr n :=
  State.readGpr_congr _ _ (h.gpr s) n

theorem Carried.readReg (r : RegId w) : (f s).readReg r = s.readReg r := by
  simp only [State.readReg, h.readGpr]

theorem Carried.ea (m : MemRef) : (f s).ea m = s.ea m := by
  simp only [State.ea, h.readGpr]

/-- Only a 32-bit write computes with more than the slot. -/
theorem Carried.writes (hw : w = 32 → CarriesWrites f 32) : CarriesWrites f w := by
  by_cases h32 : w = 32
  · subst h32
    exact hw rfl
  · intro s r v
    simp only [State.writeReg, h.readGpr, h32, false_and, if_false, h.writeGpr]

theorem Carried.complete (i : Instr) : complete i (f s) = mapNext f (complete i s) := by
  simp only [complete_eq, mapNext, h.ip, h.commit]

theorem Carried.raiseFault (c : FaultCode) : raiseFault c (f s) = mapNext f (raiseFault c s) :=
  congrArg Host.Outcome.next (h.afterFault s c)

theorem Carried.endRun (i : Instr) (status : RunStatus) :
    endRun i status (f s) = mapNext f (endRun i status s) := by
  rw [Machine.endRun, Machine.endRun, h.ip, h.commit]
  exact congrArg Host.Outcome.next (h.setRun _ status)

theorem Carried.branch (i : Instr) (d : Int) :
    branch i d (f s) = mapNext f (branch i d s) := by
  simp only [Machine.branch, h.ip, h.code]
  split
  · exact h.raiseFault s _
  · exact congrArg Host.Outcome.next (h.commit s i _)

theorem Carried.jumpIfEqual (i : Instr) (d : Int) :
    jumpIfEqual i d (f s) = mapNext f (jumpIfEqual i d s) := by
  unfold Machine.jumpIfEqual
  rw [h.eq]
  rcases s.eq with _ | _ | _
  · exact h.raiseFault s _
  · exact h.complete s i
  · exact h.branch s i d

theorem Carried.load (ha : CarriesAccesses f) (ea : Word) {k k' : BitVec w → Result}
    (hk : ∀ v, k' v = mapNext f (k v)) : (f s).load ea w k' = mapNext f (s.load ea w k) := by
  rw [State.load_eq, State.load_eq, ha.stackSize, ha.mem]
  split
  · exact hk _
  · exact h.raiseFault s _

theorem Carried.store (ha : CarriesAccesses f) (ea : Word) (v : BitVec w) {k k' : State → Result}
    (hk : ∀ t, k' (f t) = mapNext f (k t)) : (f s).store ea v k' = mapNext f (s.store ea v k) := by
  rw [State.store_eq, State.store_eq, ha.setMem, ha.stackSize, ha.mem]
  split
  · exact hk _
  · exact h.raiseFault s _

/-- An instruction carries the change along if its memory access and its 32-bit register write,
where it makes one, do. -/
theorem Carried.exec (i : Instr) (h32 : i.writesReg32 = true → CarriesWrites f 32)
    (ha : i.accesses s ≠ none → CarriesAccesses f) :
    exec i (f s) = mapNext f (exec i s) := by
  cases i with
  | movRmR _ w | movRImm _ w | movRmImm _ w | xorRmR _ w | subRmImm8 _ w | subRmImm32 _ w =>
    have hw : ∀ s (r : RegId w.bits) v, (f s).writeReg r v = f (s.writeReg r v) :=
      h.writes fun hb => h32 (by simp [Instr.writesReg32, Instr.bits, Instr.form, hb])
    simp only [Machine.exec, execMovRmR, execMovRImm, execMovRmImm, execXorRmR, execSubRmImm8,
      execSubRmImm32, h.readReg, hw, h.clearEq, h.complete]
  | movR8M8 pre reg mem =>
    have hw : CarriesWrites f 8 := h.writes fun h8 => absurd h8 (by decide)
    simp only [Machine.exec, execMovR8M8, h.ea]
    exact h.load s (ha nofun) _ fun v => by rw [hw, h.complete]
  | movR32M32 pre reg mem =>
    simp only [Machine.exec, execMovR32M32, h.ea]
    exact h.load s (ha nofun) _ fun v => by rw [h32 rfl, h.complete]
  | cmpM8Imm8 =>
    simp only [Machine.exec, execCmpM8Imm8, h.ea]
    exact h.load s (ha nofun) _ fun v => by rw [h.compareEq, h.complete]
  | popR64 =>
    simp only [Machine.exec, execPopR64, h.readGpr]
    exact h.load s (ha nofun) _ fun v => by rw [h.writeGpr, h.writeGpr, h.complete]
  | movM8R8 | movM32R32 | movM32Imm32 =>
    simp only [Machine.exec, execMovM8R8, execMovM32R32, execMovM32Imm32, h.ea, h.readReg]
    exact h.store s (ha nofun) _ _ fun t => h.complete t _
  | pushR64 =>
    simp only [Machine.exec, execPushR64, h.readGpr]
    exact h.store s (ha nofun) _ _ fun t => by rw [h.writeGpr, h.complete]
  | jeRel8 | jeRel32 => exact h.jumpIfEqual s _ _
  | jmpRel32 => exact h.branch s _ _
  | endbr64 => exact h.complete s _
  | hlt | ret => exact h.endRun s _ _

end

/-! ### Memory, for an instruction that makes no access (20_memory.md R65) -/

/-- The state with another memory. -/
def State.withMem (m : Memory) (s : State) : State := { s with mem := m }

/-- The end of an instruction carries the memory along. -/
theorem State.commit_withMem (m : Memory) (s : State) (i : Instr) (target : Int) :
    (s.withMem m).commit i target = (s.commit i target).withMem m := by
  unfold State.commit State.emit
  rw [show (s.withMem m).sinkAttached = s.sinkAttached from rfl]
  split <;> rfl

theorem carried_withMem (m : Memory) : Carried (State.withMem m) where
  gpr _ := rfl
  ip _ := rfl
  eq _ := rfl
  code _ := rfl
  writeGpr _ _ _ := rfl
  clearEq _ := rfl
  compareEq _ _ _ := rfl
  commit s i target := s.commit_withMem m i target
  setRun _ _ := rfl
  afterFault _ _ := rfl

/-- Settles O30: the range check comes first, and without an access the memory is carried along. -/
theorem outOfRangeAccessFaults : Obligations.OutOfRangeAccessFaults :=
  ⟨fun _ _ _ _ => exec_of_out_of_range, fun i s m hnone =>
    (carried_withMem m).exec s i (fun _ _ _ _ => rfl) fun hsome => absurd hnone hsome⟩

/-! ### ZEXT32 (10_state.md R37) -/

/-- The state with another value of ZEXT32. -/
def State.withZext32 (z : Bool) (s : State) : State :=
  { s with params := { s.params with zext32 := z } }

/-- The line of the trace does not depend on ZEXT32. -/
theorem State.commit_withZext32 (z : Bool) (s : State) (i : Instr) (target : Int) :
    (s.withZext32 z).commit i target = (s.commit i target).withZext32 z := by
  unfold State.commit State.emit
  rw [show (s.withZext32 z).sinkAttached = s.sinkAttached from rfl]
  split <;> rfl

theorem carried_withZext32 (z : Bool) : Carried (State.withZext32 z) where
  gpr _ := rfl
  ip _ := rfl
  eq _ := rfl
  code _ := rfl
  writeGpr _ _ _ := rfl
  clearEq _ := rfl
  compareEq _ _ _ := rfl
  commit s i target := s.commit_withZext32 z i target
  setRun _ _ := rfl
  afterFault _ _ := rfl

theorem carriesAccesses_withZext32 (z : Bool) : CarriesAccesses (State.withZext32 z) where
  mem _ := rfl
  stackSize _ := rfl
  setMem _ _ := rfl

/-- Settles O53: without a 32-bit register write the parameter is carried along. -/
theorem zextActsOnlyOn32BitRegisterWrites : Obligations.ZextActsOnlyOn32BitRegisterWrites :=
  fun i s z hno => (carried_withZext32 z).exec s i (fun h32 => by rw [hno] at h32; cases h32)
    fun _ => carriesAccesses_withZext32 z

end Sys2Proof.Machine
end

section
/-! PROOFS. A REX byte of zeros (30_encoding.md R79). -/

namespace Sys2Proof

/-! ### An instruction under other prefixes -/

theorem Instr.withPrefixes_prefixes (i : Instr) : i.withPrefixes i.prefixes = i := by
  cases i <;> rfl

theorem Instr.form_withPrefixes (p : Prefixes) (i : Instr) :
    (i.withPrefixes p).form = i.form := by
  cases i <;> rfl

theorem Instr.prefixes_withPrefixes {i : Instr} (p : Prefixes)
    (h : i.form.allowance.rex = true) : (i.withPrefixes p).prefixes = p := by
  cases i with
  | jeRel8 | jeRel32 | jmpRel32 | endbr64 | hlt | ret => cases h
  | _ => rfl

/-- The reference rendering does not show the prefixes, but for the length of a branch, which has
none. -/
theorem render_withPrefixes (p : Prefixes) (i : Instr) : render (i.withPrefixes p) = render i := by
  cases i <;> rfl

/-- The same instruction with a REX byte of zeros. -/
def Instr.withZeroRex (i : Instr) : Instr := i.withPrefixes ⟨i.prefixes.osz, some 0⟩

/-- A row that allows REX takes a REX byte of zeros wherever it takes none. -/
theorem Allowance.admits_zeroRex {a : Allowance} {osz : Bool} (hrex : a.rex = true)
    (h : a.admits ⟨osz, none⟩ = true) : a.admits ⟨osz, some 0⟩ = true := by
  simp_all [Allowance.admits, Prefixes.rexBits]

theorem Prefixes.count_zeroRex (osz : Bool) :
    Prefixes.count ⟨osz, some 0⟩ = Prefixes.count ⟨osz, none⟩ + 1 := rfl

section

variable {i : Instr} (hrex : i.prefixes.rex = none)
include hrex

/-- Only an 8-bit register depends on whether a REX byte is there; its bits alone give the width and
the extension bits. -/
theorem Instr.operandsOk_withZeroRex (hload : i.form ≠ .movR8M8) (hstore : i.form ≠ .movM8R8) :
    i.withZeroRex.operandsOk = i.operandsOk := by
  cases i with
  | movR8M8 => exact absurd rfl hload
  | movM8R8 => exact absurd rfl hstore
  | jeRel8 | jeRel32 | jmpRel32 | endbr64 | hlt | ret => rfl
  | _ pre =>
    obtain ⟨osz, rex⟩ := pre
    obtain rfl : rex = none := hrex
    rfl

theorem Instr.wellFormed_withZeroRex (hok : i.form.allowance.rex = true)
    (hload : i.form ≠ .movR8M8) (hstore : i.form ≠ .movM8R8) (h : WellFormed i = true) :
    WellFormed i.withZeroRex = true := by
  obtain ⟨hp, hops⟩ := wellFormed_iff.mp h
  refine wellFormed_iff.mpr ⟨?_, (Instr.operandsOk_withZeroRex hrex hload hstore).trans hops⟩
  rw [Instr.withZeroRex, Instr.form_withPrefixes, Instr.prefixes_withPrefixes _ hok]
  exact Allowance.admits_zeroRex hok (hrex ▸ hp)

theorem Instr.length_withZeroRex (hok : i.form.allowance.rex = true) :
    i.withZeroRex.length = i.length + 1 := by
  cases i with
  | jeRel8 | jeRel32 | jmpRel32 | endbr64 | hlt | ret => cases hok
  | _ pre =>
    obtain ⟨osz, rex⟩ := pre
    obtain rfl : rex = none := hrex
    simp +arith only [Instr.withZeroRex, Instr.withPrefixes, Instr.prefixes, Instr.length,
      Prefixes.count_zeroRex]

end

end Sys2Proof

namespace Sys2Proof.Machine

variable {s t u : State} {i : Instr}

/-- The prefixes of an instruction do not act on its run but by its line and its length: under all
of them it faults, or under all of them it completes with one effect. -/
def AlikeUnderPrefixes (i : Instr) (s : State) : Prop :=
  (∀ p, exec (i.withPrefixes p) s = .next (s.afterFault .stackOutOfRange)) ∨
    ∃ u, Effect i s u ∧ ∀ p, exec (i.withPrefixes p) s = complete (i.withPrefixes p) u

theorem alike_of_load {w : Nat} (ea : Word) (f : BitVec w → State)
    (heff : ∀ v, s.memRead ea w = .ok v → Effect i s (f v))
    (e : ∀ p, exec (i.withPrefixes p) s =
      s.load ea w fun v => complete (i.withPrefixes p) (f v)) : AlikeUnderPrefixes i s := by
  obtain ⟨-, hread⟩ | ⟨hlt, -⟩ := s.memRead_cases ea w
  · exact .inr ⟨_, heff _ hread, fun p => (e p).trans (State.load_of_ok _ hread)⟩
  · exact .inl fun p => (e p).trans (State.load_of_lt _ hlt)

theorem alike_of_store {w : Nat} (ea : Word) (v : BitVec w) (f : State → State)
    (heff : ∀ t, s.memWrite ea v = .ok t → Effect i s (f t))
    (e : ∀ p, exec (i.withPrefixes p) s =
      s.store ea v fun t => complete (i.withPrefixes p) (f t)) : AlikeUnderPrefixes i s := by
  obtain ⟨-, hst⟩ | ⟨hlt, -⟩ := s.memWrite_cases ea v
  · exact .inr ⟨_, heff _ hst, fun p => (e p).trans (State.store_of_ok _ hst)⟩
  · exact .inl fun p => (e p).trans (State.store_of_lt _ hlt)

theorem alikeUnderPrefixes (s : State) (h : i.form.allowance.rex = true) :
    AlikeUnderPrefixes i s := by
  cases i with
  | movRmR pre w rm reg => exact .inr ⟨_, .movRmR pre w rm reg s, fun _ => rfl⟩
  | movRImm pre w r imm => exact .inr ⟨_, .movRImm pre w r imm s, fun _ => rfl⟩
  | movRmImm pre w rm imm => exact .inr ⟨_, .movRmImm pre w rm imm s, fun _ => rfl⟩
  | xorRmR pre w rm reg => exact .inr ⟨_, .xorRmR pre w rm reg s, fun _ => rfl⟩
  | subRmImm8 pre w rm imm => exact .inr ⟨_, .subRmImm8 pre w rm imm s, fun _ => rfl⟩
  | subRmImm32 pre w rm imm => exact .inr ⟨_, .subRmImm32 pre w rm imm s, fun _ => rfl⟩
  | movR8M8 pre reg mem => exact alike_of_load _ _ (.movR8M8 pre reg mem s) fun _ => rfl
  | movR32M32 pre reg mem => exact alike_of_load _ _ (.movR32M32 pre reg mem s) fun _ => rfl
  | cmpM8Imm8 pre mem imm => exact alike_of_load _ _ (.cmpM8Imm8 pre mem imm s) fun _ => rfl
  | popR64 pre r => exact alike_of_load _ _ (.popR64 pre r s) fun _ => rfl
  | movM8R8 pre mem reg => exact alike_of_store _ _ _ (.movM8R8 pre mem reg s) fun _ => rfl
  | movM32R32 pre mem reg => exact alike_of_store _ _ _ (.movM32R32 pre mem reg s) fun _ => rfl
  | movM32Imm32 pre mem imm => exact alike_of_store _ _ _ (.movM32Imm32 pre mem imm s) fun _ => rfl
  | pushR64 pre r => exact alike_of_store _ _ _ (.pushR64 pre r s) fun _ => rfl
  | jeRel8 | jeRel32 | jmpRel32 | endbr64 | hlt | ret => cases h

theorem line_withZeroRex {p : Params} (hp : p.renderer = .reference) (i : Instr) :
    p.line i.withZeroRex = p.line i := by
  simp only [Params.line, hp]
  exact render_withPrefixes _ i

/-- Settles O13: both instructions take the same fault, or complete with the same effect, the same
line and lengths that differ by one. -/
theorem zeroRexHasNoEffect : Obligations.ZeroRexHasNoEffect := by
  intro i s t hwf hrex hok hload hstore hrun hp h
  refine ⟨Instr.wellFormed_withZeroRex hrex hok hload hstore hwf, ?_⟩
  obtain hfault | ⟨u, heff, hexec⟩ := alikeUnderPrefixes s hok
  · refine ⟨_, hfault _, ?_⟩
    rw [← i.withPrefixes_prefixes, hfault] at h
    cases h
    exact ⟨rfl, rfl, rfl, rfl, rfl, rfl, (if_neg nofun).symm⟩
  · obtain ⟨-, -, -, hrun', -, -, -, -, hparams⟩ := heff.keeps
    have hself := hexec i.prefixes
    rw [i.withPrefixes_prefixes, h, complete_eq] at hself
    cases hself
    refine ⟨_, (hexec _).trans (complete_eq _), by simp, by simp, by simp, by simp, by simp, ?_, ?_⟩
    · rw [State.commit_trace, State.commit_trace, hparams]
      exact congrArg (fun l => if u.sinkAttached then u.trace ++ [l] else u.trace)
        (line_withZeroRex hp i)
    · rw [State.commit_ip, State.commit_ip, State.commit_run, hrun', hrun, if_pos rfl]
      have hlen := Instr.length_withZeroRex hrex hok
      rw [Instr.withZeroRex] at hlen
      omega

end Sys2Proof.Machine
end

section
/-! PROOFS. Launch and reset (70_reset_and_hazards.md R146, R147; 10_state.md R53), and the step as
Decode and the rule of the row (R149). -/

namespace Sys2Proof.Machine

/-! ### When a launch starts a run -/

theorem holdsRegisters_iff (p : Params) :
    p.holdsRegisters = true ↔ 16 ≤ p.numSlots ∧ 8 ≤ p.slotBytes := by
  simp [Params.holdsRegisters]

theorem launch_of_small {l : Launch} (h : l.params.numSlots < 16 ∨ l.params.slotBytes < 8) :
    launch l = .refused (.registerFileTooSmall l.params.numSlots l.params.slotBytes) := by
  have hno : ¬ l.params.holdsRegisters = true := by
    rw [holdsRegisters_iff]
    omega
  simp [launch, hno]

theorem launch_of_holdsRegisters {l : Launch} (h16 : 16 ≤ l.params.numSlots)
    (h8 : 8 ≤ l.params.slotBytes) : launch l =
      if l.params.codeMax < l.code.length then .refused (.codeTooLong l.code.length)
      else .next (State.ofLaunch l) := by
  simp [launch, (holdsRegisters_iff _).mpr ⟨h16, h8⟩]

/-- A run starts in the fresh state only. -/
theorem eq_ofLaunch_of_launch {l : Launch} {s : State} (h : launch l = .next s) :
    s = State.ofLaunch l := by
  unfold launch at h
  split_ifs at h
  cases h
  rfl

/-! ### The fresh state (10_state.md R53) -/

theorem ofLaunch_spare_length {l : Launch} (h16 : 16 ≤ l.params.numSlots)
    (h8 : 8 ≤ l.params.slotBytes) :
    (State.ofLaunch l).spare.length + 128 = l.params.numSlots * l.params.slotBytes := by
  have hle : 16 * 8 ≤ l.params.numSlots * l.params.slotBytes := Nat.mul_le_mul h16 h8
  have hlen : (State.ofLaunch l).spare.length = l.params.spareBytes := by
    simp [State.ofLaunch]
  rw [hlen]
  exact Nat.sub_add_cancel hle

/-- A list padded with zeros reads as the list does with zeros past its end. -/
theorem getD_rightpad_take (bs : List Byte) {n k : Nat} (hk : k < n) :
    ((bs.take n).rightpad n 0).getD k 0 = bs.getD k 0 := by
  simp only [List.rightpad, List.getD_eq_getElem?_getD, List.getElem?_append, List.length_take,
    List.getElem?_replicate, List.getElem?_take]
  by_cases hb : k < bs.length
  · rw [if_pos (by omega), if_pos hk]
  · rw [if_neg (by omega), if_pos (by omega), List.getElem?_eq_none (by omega)]
    rfl

/-- Settles O35: the launch is not refused, and the fresh state has these values. -/
theorem launchGivesResetValues : Obligations.LaunchGivesResetValues := by
  intro l h16 h8 hcode
  refine ⟨State.ofLaunch l, ?_, ?_, ?_, fun n h4 h5 => ?_, ofLaunch_spare_length h16 h8,
    fun k hk => ?_, rfl, rfl, rfl, rfl, rfl, rfl, rfl, rfl, rfl, rfl⟩
  · rw [launch_of_holdsRegisters h16 h8, if_neg (Nat.not_lt.mpr hcode)]
  · simp [State.readGpr, State.ofLaunch, Params.stackTop]
  · simp [State.readGpr, State.ofLaunch, Params.stackTop]
  · have h4' : 4 ≠ n.1 := fun h => h4 (Fin.ext h.symm)
    have h5' : 5 ≠ n.1 := fun h => h5 (Fin.ext h.symm)
    simp [State.ofLaunch, h4', h5']
  · refine getD_rightpad_take l.spareInit ?_
    simpa [State.ofLaunch] using hk

/-- Settles O36: the reference launch is not refused, and its values are computed. -/
theorem resetIsReferenceLaunch : Obligations.ResetIsReferenceLaunch :=
  ⟨rfl, rfl, rfl, by decide, rfl, fun _ => rfl, rfl, rfl, rfl⟩

/-- Settles O37: the register file is checked first, then the length of the code; with no code the
first fetch finds no byte. -/
theorem launchRefusesOnlyLongCode : Obligations.LaunchRefusesOnlyLongCode := by
  refine ⟨fun l h16 h8 => ?_, fun l h16 h8 hcode => ?_, fun l h => launch_of_small h⟩
  · rw [launch_of_holdsRegisters h16 h8]
    split_ifs with hlong <;> simp [hlong]
  · refine ⟨State.ofLaunch l, ?_, ?_, rfl⟩
    · rw [launch_of_holdsRegisters h16 h8, hcode]
      exact if_neg (Nat.not_lt_zero _)
    · exact step_of_decode_error rfl (decodeAt_of_length_le (by simp [State.ofLaunch, hcode]))

/-- Settles O42: a fresh state has clear latches, `ip` 0 and the launch's memory; reset lists no
address. -/
theorem launchMeetsInvariants : Obligations.LaunchMeetsInvariants := by
  have fresh : ∀ l : Launch, l.stackInit.wf = true →
      (∀ c ∈ l.stackInit, c.1 < l.params.stackSize) →
      Inv (State.ofLaunch l) ∧ MemInv (State.ofLaunch l) :=
    fun l hwf hin => ⟨⟨rfl, rfl, fun _ => ⟨le_rfl, Int.natCast_nonneg _⟩⟩, hwf, hin⟩
  refine ⟨fresh Launch.reference rfl nofun, fun l s h hwf hin => ?_⟩
  rw [eq_ofLaunch_of_launch h]
  exact fresh l hwf hin

/-- Settles O38: the three cases of the step. -/
theorem stepRunsDecodedInstruction : Obligations.StepRunsDecodedInstruction :=
  fun _ => ⟨fun hr _ _ hd => step_of_decode_ok hr hd, fun hr _ hd => step_of_decode_error hr hd,
    fun hr _ h => hr (step_cases h).1⟩

end Sys2Proof.Machine
end

section
/-! PROOFS. The lines of the trace (00_scope.md R26, 30_encoding.md R104): the reference rendering
keeps to the three properties, and any other renderer is taken only where it does. -/

namespace Sys2Proof

/-- The properties of R26, one by one. -/
theorem conventions_of {i : Instr} {text : String}
    (hregs : ∀ n ∈ i.registers, n.toList ∈ words text.toList)
    (hcase : namesLowerCase text.toList = true)
    (hmem : ∀ m, i.memOperand = some m → anyTail m.beginsText text.toList = true)
    (himm : ∀ v, i.shortFormImm = some v → ∃ w ∈ words text.toList, isHexOf v w = true) :
    i.conventions text = true := by
  simp only [Instr.conventions, Bool.and_eq_true, List.all_eq_true, List.contains_iff_mem]
  refine ⟨⟨⟨hregs, hcase⟩, ?_⟩, ?_⟩
  · split
    · rfl
    · exact hmem _ ‹_›
  · split
    · rfl
    · exact List.any_eq_true.mpr (himm _ ‹_›)

/-! ### Texts without upper-case letters -/

/-- A text without upper-case letters. -/
def LowerCase (x : String) : Prop := ∀ c ∈ x.toList, c.toLower = c

theorem LowerCase.of_all {x : String} (h : (x.toList.all fun c => c.toLower == c) = true) :
    LowerCase x := fun c hc => by
  simpa using List.all_eq_true.mp h c hc

theorem PlainText.lowerCase {x : String} (h : PlainText x.toList) : LowerCase x :=
  fun c hc => (h c hc).2

theorem lowerCase_append {x y : String} : LowerCase (x ++ y) ↔ LowerCase x ∧ LowerCase y := by
  simp [LowerCase, or_imp, forall_and]

theorem lowerCase_ofList_toDigits (n : Nat) {b : Nat} (hb : 1 < b) (hb' : b ≤ 16) :
    LowerCase (String.ofList (Nat.toDigits b n)) :=
  PlainText.lowerCase (by simpa using plainText_toDigits n hb hb')

theorem lowerCase_decNat (n : Nat) : LowerCase (decNat n) :=
  lowerCase_ofList_toDigits n (by decide) (by decide)

theorem lowerCase_decInt (d : Int) : LowerCase (decInt d) := by
  unfold decInt
  split
  · exact lowerCase_append.mpr ⟨.of_all rfl, lowerCase_decNat _⟩
  · exact lowerCase_decNat _

theorem lowerCase_hexNat (n : Nat) : LowerCase (hexNat n) :=
  lowerCase_append.mpr ⟨.of_all rfl, lowerCase_ofList_toDigits n (by decide) (by decide)⟩

theorem lowerCase_signedNat (d : Int) : LowerCase (signedNat d) := by
  refine lowerCase_append.mpr ⟨?_, lowerCase_decNat _⟩
  split <;> exact .of_all rfl

theorem lowerCase_memText (m : MemRef) : LowerCase m.text := by
  simp only [MemRef.text, lowerCase_append]
  exact ⟨⟨⟨.of_all rfl, (plainText_name64 _).lowerCase⟩, lowerCase_signedNat _⟩, .of_all rfl⟩

theorem lowerCase_targetText (len : Nat) (d : Int) : LowerCase (targetText len d) :=
  lowerCase_append.mpr ⟨.of_all rfl, lowerCase_signedNat _⟩

/-- The fixed parts of the reference rendering. -/
theorem lowerCase_fixed : ∀ x ∈ ["mov ", "mov dword ", "xor ", "sub ", "cmp byte ", "push ", "pop ",
    "je short ", "je near ", "jmp near ", "endbr64", "hlt", "ret", ", "], LowerCase x := by
  have h : (["mov ", "mov dword ", "xor ", "sub ", "cmp byte ", "push ", "pop ", "je short ",
      "je near ", "jmp near ", "endbr64", "hlt", "ret", ", "].all fun x =>
        x.toList.all fun c => c.toLower == c) = true := rfl
  exact fun x hx => .of_all (List.all_eq_true.mp h x hx)

theorem lowerCase_render (i : Instr) : LowerCase (render i) := by
  have fixed := lowerCase_fixed
  simp only [List.forall_mem_cons, List.not_mem_nil, false_imp_iff, implies_true] at fixed
  cases i <;>
    simp [render, lowerCase_append, fixed, (plainText_widthName _ _).lowerCase,
      (plainText_reg8Name _).lowerCase, (plainText_name32 _).lowerCase,
      (plainText_name64 _).lowerCase, lowerCase_hexNat, lowerCase_decInt, lowerCase_decNat,
      lowerCase_memText, lowerCase_targetText]

/-! ### The words of the reference rendering -/

theorem PlainText.mem_words {t : List Char} (h : PlainText t) : t ∈ words t := by
  simp [h.words_eq]

/-- The words of an operand behind a mnemonic. -/
theorem words_one_operand {m x : String} (hm : m.toList.getLast? = some ' ') :
    ∃ ws, words (m ++ x).toList = ws ++ words x.toList := by
  obtain ⟨h, hm⟩ := List.getLast?_eq_some_iff.mp hm
  refine ⟨words h, ?_⟩
  rw [String.toList_append, hm, List.append_assoc]
  exact words_append_cons h x.toList ' ' rfl

/-- The words of two operands behind a mnemonic. -/
theorem words_two_operands {m x y : String} (hm : m.toList.getLast? = some ' ') :
    ∃ ws, words (m ++ x ++ ", " ++ y).toList =
      ws ++ (words x.toList ++ ([] :: words y.toList)) := by
  obtain ⟨ws, hws⟩ := words_one_operand (x := x ++ ", " ++ y) hm
  refine ⟨ws, ?_⟩
  rw [show m ++ x ++ ", " ++ y = m ++ (x ++ ", " ++ y) by simp only [String.append_assoc], hws]
  congr 1
  have hcomma : (x ++ ", " ++ y).toList = x.toList ++ ',' :: ([] ++ ' ' :: y.toList) := by simp
  rw [hcomma, words_append_cons _ _ ',' rfl, words_append_cons _ _ ' ' rfl]
  rfl

theorem mem_words_first {m x y : String} {n : List Char} (hm : m.toList.getLast? = some ' ')
    (hn : n ∈ words x.toList) : n ∈ words (m ++ x ++ ", " ++ y).toList := by
  obtain ⟨ws, hws⟩ := words_two_operands (x := x) (y := y) hm
  rw [hws]
  simp [hn]

theorem mem_words_second {m x y : String} {n : List Char} (hm : m.toList.getLast? = some ' ')
    (hn : n ∈ words y.toList) : n ∈ words (m ++ x ++ ", " ++ y).toList := by
  obtain ⟨ws, hws⟩ := words_two_operands (x := x) (y := y) hm
  rw [hws]
  simp [hn]

/-- The base register is a word of the memory operand's text. -/
theorem base_mem_words_text (m : MemRef) : (name64 m.base).toList ∈ words m.text.toList := by
  have hsign : ∀ d : Int, (if d < 0 then '-' else '+' : Char).isAlphanum = false := by
    intro d
    split <;> rfl
  rw [MemRef.text_toList, ← List.nil_append ('[' :: _), words_append_cons _ _ '[' rfl,
    words_append_cons _ _ _ (hsign _), (plainText_name64 _).words_eq]
  simp

theorem registers_mem_words_render (i : Instr) :
    ∀ n ∈ i.registers, n.toList ∈ words (render i).toList := by
  have one : ∀ {m x : String}, m.toList.getLast? = some ' ' → PlainText x.toList →
      x.toList ∈ words (m ++ x).toList := by
    intro m x hm hx
    obtain ⟨ws, hws⟩ := words_one_operand (x := x) hm
    rw [hws]
    simp [hx.mem_words]
  cases i <;> simp only [Instr.registers, List.forall_mem_cons, List.not_mem_nil, false_imp_iff,
    implies_true, and_true, render]
  case movRmR pre w rm reg | xorRmR pre w rm reg =>
    exact ⟨mem_words_first rfl (plainText_widthName w rm).mem_words,
      mem_words_second rfl (plainText_widthName w reg).mem_words⟩
  case movRImm pre w r imm => exact mem_words_first rfl (plainText_widthName w r).mem_words
  case movRmImm pre w r imm | subRmImm8 pre w r imm | subRmImm32 pre w r imm =>
    exact mem_words_first rfl (plainText_widthName w r).mem_words
  case movR8M8 pre reg mem =>
    exact ⟨mem_words_first rfl (plainText_reg8Name reg).mem_words,
      mem_words_second rfl (base_mem_words_text mem)⟩
  case movM8R8 pre mem reg =>
    exact ⟨mem_words_first rfl (base_mem_words_text mem),
      mem_words_second rfl (plainText_reg8Name reg).mem_words⟩
  case movR32M32 pre reg mem =>
    exact ⟨mem_words_first rfl (plainText_name32 reg).mem_words,
      mem_words_second rfl (base_mem_words_text mem)⟩
  case movM32R32 pre mem reg =>
    exact ⟨mem_words_first rfl (base_mem_words_text mem),
      mem_words_second rfl (plainText_name32 reg).mem_words⟩
  case movM32Imm32 pre mem imm | cmpM8Imm8 pre mem imm =>
    exact mem_words_first rfl (base_mem_words_text mem)
  case pushR64 pre r | popR64 pre r => exact one rfl (plainText_name64 r)

/-- The text of a memory operand stands in the line. -/
theorem memText_in_render {i : Instr} {m : MemRef} (h : i.memOperand = some m) :
    ∃ pre post, (render i).toList = pre ++ (m.text.toList ++ post) := by
  cases i with
  | movR8M8 p reg mem =>
    cases h
    exact ⟨("mov " ++ reg.name ++ ", ").toList, [], by simp [render]⟩
  | movM8R8 p mem reg =>
    cases h
    exact ⟨"mov ".toList, (", " ++ reg.name).toList, by simp [render]⟩
  | movR32M32 p reg mem =>
    cases h
    exact ⟨("mov " ++ name32 reg ++ ", ").toList, [], by simp [render]⟩
  | movM32R32 p mem reg =>
    cases h
    exact ⟨"mov ".toList, (", " ++ name32 reg).toList, by simp [render]⟩
  | movM32Imm32 p mem imm =>
    cases h
    exact ⟨"mov dword ".toList, (", " ++ decInt imm.toInt).toList, by simp [render]⟩
  | cmpM8Imm8 p mem imm =>
    cases h
    exact ⟨"cmp byte ".toList, (", " ++ decNat imm.toNat).toList, by simp [render]⟩
  | _ => cases h

/-- A number in hexadecimal is one word. -/
theorem hexNat_mem_words (n : Nat) : (hexNat n).toList ∈ words (hexNat n).toList := by
  refine PlainText.mem_words fun c hc => ?_
  have hc' : c ∈ ['0', 'x'] ∨ c ∈ Nat.toDigits 16 n := by simpa [hexNat, or_assoc] using hc
  have zero_x : PlainText ['0', 'x'] := .of_all _ (by decide)
  obtain hc | hc := hc'
  · exact zero_x c hc
  · exact mem_toDigits (by decide) (by decide) hc

/-- The reference rendering keeps to the conventions. -/
theorem conventions_render (i : Instr) : i.conventions (render i) = true := by
  refine conventions_of (registers_mem_words_render i)
    (namesLowerCase_of_map _ (lowerCase_render i)) (fun m hm => ?_) (fun v hv => ?_)
  · obtain ⟨pre, post, hr⟩ := memText_in_render hm
    rw [hr]
    exact anyTail_append _ _ _ (m.beginsText_text post)
  · cases i with
    | movRImm p w r imm =>
      cases hv
      exact ⟨_, mem_words_second rfl (hexNat_mem_words _), isHexOf_hexNat _⟩
    | _ => cases hv

/-- Settles O54: the reference text keeps to the conventions, and another text is written only where
it does. -/
theorem everyLineKeepsToTheConventions : Obligations.EveryLineKeepsToTheConventions := by
  intro p i
  unfold Params.line
  split
  · exact conventions_render i
  · split
    · assumption
    · exact conventions_render i

end Sys2Proof
end
